-- ==== Sys2Proof/Word.lean ====
section
/-! DEFINITION. The word types of the core: the 4-bit nibble, the 16-nibble Block, the 32-bit command
word and the 64-bit data word (00_scope.md R7, R8; 30_encoding.md R70). -/

namespace Sys2Proof

/-- An unsigned 4-bit value, the cipher's elementary unit (R8). -/
abbrev Nibble := BitVec 4

/-- An 8-bit command field or counter: RIDX, RCNT, RCTR, RLIM (R30, R71). -/
abbrev Byte := BitVec 8

/-- A command word `cmd[31:0]` (R70). -/
abbrev CmdWord := BitVec 32

/-- A 64-bit data word, as it crosses `din` and `dout` (R54). -/
abbrev DataWord := BitVec 64

/-- A Block: an array of 16 nibbles indexed 0..15 (R8). -/
abbrev Block := Vector Nibble 16

/-- The Block whose nibbles are all 0 (the reset value of every Block register, R251). -/
abbrev zeroBlock : Block := Vector.replicate 16 0

end Sys2Proof
end

