-- ==== Sys2Proof/Config.lean ====
section
/-! DEFINITION. What an implementation fixes (00_scope.md R5, R6, R34): the parameters of the core as one
record, the conditions the spec puts on them, and the free values. The defaults of R5, which the
spec's own hardware takes, stand in Sys2Proof/Machine/Tables.lean. -/

namespace Sys2Proof

/-- The open parameters of R5. `NNIB` = 16, `NW` = 4 and `NTK` = 4 are fixed by the source and are held in
the types. The configuration is not state: no command writes it and reset does not change it (R34). -/
structure Config where
  /-- `MAX_ROUNDS`: length of each round-constant sequence, bound on a round index and a round count. -/
  maxRounds : Nat
  /-- `SBOX`: the 4-bit substitution table (R101). -/
  sbox : Vector Nibble 16
  /-- `PERM_P`: the nibble permutation of round step 4 (R102). -/
  permP : Vector (Fin 16) 16
  /-- `PERM_Q`: the tweak permutation of the schedule (R103). It need not be an involution (C1). -/
  permQ : Vector (Fin 16) 16
  /-- `RC_A`: the round constants XORed into STATE[4], `MAX_ROUNDS` entries of 4 bits (R104). -/
  rcA : List Nibble
  /-- `RC_B`: the round constants XORed into STATE[5], `MAX_ROUNDS` entries of 3 bits (R104). -/
  rcB : List (BitVec 3)
  /-- `DTK_PRESENT`: whether the decryption-oriented schedule can be read (R107, R176). -/
  dtkPresent : Bool
  deriving DecidableEq, Repr

/-- What R5, R102 to R104 and R151 ask of the parameters: `MAX_ROUNDS` fits a round counter of 8 bits
("R ≤ MAX_ROUNDS ≤ 255"), both sequences have `MAX_ROUNDS` entries, and both position tables are permutations. -/
abbrev Config.Wf (c : Config) : Prop :=
  c.maxRounds ≤ 255 ∧ c.rcA.length = c.maxRounds ∧ c.rcB.length = c.maxRounds ∧
    (∀ i j : Fin 16, c.permP[i] = c.permP[j] → i = j) ∧ (∀ i j : Fin 16, c.permQ[i] = c.permQ[j] → i = j)

/-- FREE VALUE (log entry 3). What a constant of `RC_A` would be at an index outside the table. The spec
gives none, and no run from reset uses one (R104, R105): it only keeps the round total. -/
opaque Config.beyondRcA : Nat → Nibble

/-- FREE VALUE (log entry 3). The same for `RC_B`. -/
opaque Config.beyondRcB : Nat → BitVec 3

/-- FREE VALUE (log entry 4). The contents of the registers before the first reset after power-up, one
word for each register number: "every register's value is unspecified, BUSY included" (R252). -/
opaque Config.powerUpWord : Nat → DataWord

end Sys2Proof
end

