-- ==== Sys2Proof/Machine/Blocks.lean ====
section
/-! DEFINITION. Operations on Blocks: element-wise exclusive-or (00_scope.md R8) and the packing of a Block
into a 64-bit port word and back (00_scope.md R9, 20_memory.md R51, R52). -/

namespace Sys2Proof.Machine

/-- `B ^ C`, nibble-wise: `(B ^ C)[i] = B[i] ^ C[i]` (R8). -/
def xorBlock (a b : Block) : Block := Vector.ofFn fun i : Fin 16 => a[i] ^^^ b[i]

/-- The Block whose nibble i is `b[P[i]]` ("element i takes Tweak[Q[i]]", R106). -/
def gather (p : Vector (Fin 16) 16) (b : Block) : Block := Vector.ofFn fun i : Fin 16 => b[p[i]]

/-- The Block reached by the writes `B'[P[i]] = B[i]` for i in 0..15 (R125). -/
def scatter (p : Vector (Fin 16) 16) (b : Block) : Block :=
  (List.finRange 16).foldl (fun acc i => acc.set (p[i] : Fin 16) b[i]) b

/-- `pack(B)` = `{B[0], B[1], ..., B[15]}`: nibble i at bits `[63-4i : 60-4i]` (R9, R51). -/
def pack (b : Block) : DataWord :=
  b[0] ++ b[1] ++ b[2] ++ b[3] ++ b[4] ++ b[5] ++ b[6] ++ b[7] ++
    b[8] ++ b[9] ++ b[10] ++ b[11] ++ b[12] ++ b[13] ++ b[14] ++ b[15]

/-- `unpack(w)[i] = w[63-4i : 60-4i]` (R9). -/
def unpack (w : DataWord) : Block := Vector.ofFn fun i : Fin 16 => w.extractLsb' (60 - 4 * i.val) 4

end Sys2Proof.Machine
end

