-- ==== Sys2Proof/Machine/State.lean ====
section
/-! DEFINITION. The state of the core as plain data (10_state.md R20 to R36), its value after reset
(70_reset_and_hazards.md R251), and the reasons a step could stop. -/

namespace Sys2Proof.Machine

/-- The values on the input ports at one rising edge of `clk` (30_encoding.md R85). -/
structure PortIn where
  /-- `rst`: synchronous reset, active high. -/
  rst : Bool
  /-- `cmd_valid`: the host presents a command on `cmd` and `din`. -/
  cmdValid : Bool
  /-- `cmd`: the command word. -/
  cmd : CmdWord
  /-- `din`: the data word. -/
  din : DataWord
  deriving DecidableEq, Repr

/-- The ports of an edge at which the host presents nothing and does not assert `rst`. -/
def PortIn.idle : PortIn := { rst := false, cmdValid := false, cmd := 0, din := 0 }

/-- The state. Every field but `inputs` is a register the spec gives the core. TK and DTK are views, not
storage (R24), and the configuration is not state (R34). There is no memory, program counter, flag or
general register (R31 to R33, R50). -/
structure State where
  /-- STATE, the 64-bit cipher state (R20). -/
  state : Block
  /-- KEY0, half of the master key (R21). -/
  key0 : Block
  /-- KEY1, the other half (R21). -/
  key1 : Block
  /-- TWEAK (R22). -/
  tweak : Block
  /-- DOUT, the output register behind the `dout` port (R25). -/
  dout : DataWord
  /-- STATUS.ERR, bit 0 of STATUS (R26, R27). -/
  err : Bool
  /-- STATUS.ECODE, bits 7:4 of STATUS (R26, R28). -/
  ecode : BitVec 4
  /-- BUSY: an ENC with R > 0 is running (R29). -/
  busy : Bool
  /-- RCTR, the index of the next round of a running ENC (R30). -/
  rctr : Byte
  /-- RLIM, the round count R of a running ENC (R30). -/
  rlim : Byte
  /-- The MODEL's own field, not the spec's (log entry 1): the input-port values of the coming edges, the
  next edge first. After the last of them the host presents nothing. -/
  inputs : List PortIn
  deriving DecidableEq, Repr

/-- The port values at the next edge. -/
def State.now (s : State) : PortIn := s.inputs.headD PortIn.idle

/-- The machine right after reset (R251): every register 0, and no input listed. -/
def State.reset : State where
  state := zeroBlock
  key0 := zeroBlock
  key1 := zeroBlock
  tweak := zeroBlock
  dout := 0
  err := false
  ecode := 0
  busy := false
  rctr := 0
  rlim := 0
  inputs := []

/-- The faults. There is none: "The core never traps" (R200), and "an accepted command that decodes cleanly
cannot fail". Errors are recorded in STATUS and the core goes on. -/
inductive Fault
  deriving DecidableEq, Repr

/-- The refusals. -/
inductive Refusal where
  /-- Raised by an arm of `exec` whose instruction has no meaning in this model: none is left. Safe: a refused
  step proves nothing about what the core does. -/
  | notModelled (mnemonic : String)
  deriving DecidableEq, Repr

/-- The outcome of a step or of a command. -/
abbrev Result := Host.Outcome State Fault Refusal

end Sys2Proof.Machine
end

