-- ==== Sys2Proof/Syntax.lean ====
section
/-! DEFINITION. The commands of the core, one constructor per row of spec/opcode_table.json
(30_encoding.md R78, R79), their operands (20_memory.md R56), and the error codes of decode
(60_exceptions.md R201). -/

namespace Sys2Proof

/-- The four Block registers, the only registers LD may name (R33, R56: SEL 0 to 3). -/
inductive BlockReg where
  | state | key0 | key1 | tweak
  deriving DecidableEq, Repr

/-- What RD may name (R56): a Block register (SEL 0 to 3), a slot of the tweakey schedule (4 to 7), a slot of
the decryption-oriented schedule (8 to 11), or STATUS (12). -/
inductive ReadSel where
  | block (r : BlockReg)
  | tk (slot : Fin 4)
  | dtk (slot : Fin 4)
  | status
  deriving DecidableEq, Repr

/-- A command, as decode yields it (R80). The data word `din` of LD is no part of it: the core takes it from
the port when it accepts the command (R70, R84). -/
inductive Instr where
  | nop
  | ld (reg : BlockReg)
  | rd (sel : ReadSel)
  /-- The round count R (R76). -/
  | enc (count : Byte)
  | mc
  /-- The round index r (R75). -/
  | arc (index : Byte)
  /-- The round index r (R75), every value legal. -/
  | atk (index : Byte)
  | pn
  | sb
  /-- The round index r (R75). -/
  | rnd (index : Byte)
  | clrerr
  | srst
  deriving DecidableEq, Repr

/-- The errors a command word can be rejected with (R201, ECODE 1 to 4). -/
inductive CmdError where
  | illegalOp
  | rsvdNonzero
  | illegalSel
  | argRange
  deriving DecidableEq, Repr

end Sys2Proof
end

