-- ==== Sys2Proof/Machine/Flags.lean ====
section
/-! DEFINITION. STATUS: its layout and the codes of its ECODE field (10_state.md R26 to R28,
43_host_transfer.md R174, 60_exceptions.md R201). No command sets any other flag (R32). -/

namespace Sys2Proof.Machine

/-- The ECODE value of an error (R201). The value 0 is NONE, and 5 to 15 are never produced. -/
def errorCode : CmdError → BitVec 4
  | .illegalOp => 1
  | .rsvdNonzero => 2
  | .illegalSel => 3
  | .argRange => 4

/-- STATUS[7:0] (R26): ECODE at bits 7:4, bits 3:1 reserved and reading 0, ERR at bit 0. -/
def statusByte (s : State) : Byte := s.ecode ++ (0 : BitVec 3) ++ BitVec.ofBool s.err

/-- STATUS as RD sees it: `zext_64(STATUS[7:0])` (R172, R174). -/
def statusWord (s : State) : DataWord := (statusByte s).setWidth 64

end Sys2Proof.Machine
end

