-- ==== Sys2Proof/Machine/Ops.lean ====
section
/-! DEFINITION. The named operations over the registers: the updates, reset (70_reset_and_hazards.md R250,
R251), recording an error, which is the core's only exception (60_exceptions.md R200 to R203), clearing it
(43_host_transfer.md R177), and the unknown state before the first reset (R252). -/

namespace Sys2Proof.Machine

/-- `STATE <- b` (R8). -/
def State.setState (s : State) (b : Block) : State := { s with state := b }

/-- The Block register that a select code of R56 names. -/
def State.block (s : State) : BlockReg → Block
  | .state => s.state
  | .key0 => s.key0
  | .key1 => s.key1
  | .tweak => s.tweak

/-- The write of a Block register (R171): "LD writes exactly the one register its SEL names and nothing else" (R55). -/
def State.setBlock (s : State) (r : BlockReg) (b : Block) : State :=
  match r with
  | .state => { s with state := b }
  | .key0 => { s with key0 := b }
  | .key1 => { s with key1 := b }
  | .tweak => { s with tweak := b }

/-- `DOUT <- w` (R25). -/
def State.setDout (s : State) (w : DataWord) : State := { s with dout := w }

/-- The write of STATUS.ERR and STATUS.ECODE (R26). -/
def State.setStatus (s : State) (err : Bool) (ecode : BitVec 4) : State := { s with err := err, ecode := ecode }

/-- The write of BUSY, RCTR and RLIM (R29, R30). -/
def State.setRun (s : State) (busy : Bool) (rctr rlim : Byte) : State :=
  { s with busy := busy, rctr := rctr, rlim := rlim }

/-- The port values of the coming edges (log entry 1). -/
def State.setInputs (s : State) (l : List PortIn) : State := { s with inputs := l }

/-- `reset()`: "the core sets every register to its value in rule R251" (R250). What the host will drive on the ports
is no register of the core and stays. -/
def resetCore (s : State) : State := State.reset.setInputs s.inputs

/-- TAKING AN EXCEPTION: `record_error(code)` (R202). Only the first error since ERR was last 0 is kept, and nothing but
STATUS changes (R203). There is no handler and no saved state (R206). -/
def recordError (e : CmdError) (s : State) : State :=
  if s.err then s else s.setStatus true (errorCode e)

/-- The way back from an error: `STATUS.ERR <- 0; STATUS.ECODE <- 0` (R177, R206). -/
def clearError (s : State) : State := s.setStatus false 0

/-- What a command does whose operand lies in range (`ok`) or not. An operand out of range never reaches `exec` through
`step`, because decode has rejected the word (R80). Given one, a meaning does what the core does with that
word: it records the error decode gives it and changes nothing else (R202, R203). DEDUCED, log entry 5. -/
def whenInRange (ok : Bool) (e : CmdError) (s t : State) : Result :=
  .next (if ok then t else recordError e s)

/-- The state before the first reset after power-up: every register holds a free value (R252, log entry 4).
It must not be treated as zero. -/
def State.powerUp (inputs : List PortIn) : State where
  state := unpack (Config.powerUpWord 0)
  key0 := unpack (Config.powerUpWord 1)
  key1 := unpack (Config.powerUpWord 2)
  tweak := unpack (Config.powerUpWord 3)
  dout := Config.powerUpWord 4
  err := (Config.powerUpWord 5).getLsbD 0
  ecode := (Config.powerUpWord 6).setWidth 4
  busy := (Config.powerUpWord 7).getLsbD 0
  rctr := (Config.powerUpWord 8).setWidth 8
  rlim := (Config.powerUpWord 9).setWidth 8
  inputs := inputs

end Sys2Proof.Machine
end

