-- ==== Sys2Proof/Machine/Rounds.lean ====
section
/-! DEFINITION. The cipher as pure functions of Blocks, for any configuration: the five round steps and the round
(41_round_ops.md R120 to R130), the tweakey schedule TK and the decryption-oriented schedule DTK
(40_tweakey.md R106, R107), and the R-round encryption (42_encrypt.md R150). Every function reads its
argument as it was before the step (00_scope.md R10). -/

namespace Sys2Proof.Machine

/-- What the schedule is derived from: the master key and the tweak (R24). -/
structure Keys where
  key0 : Block
  key1 : Block
  tweak : Block
  deriving DecidableEq, Repr

/-- `mix(B)`, linear mixing, round step 1 (R120): nibble i of the first row takes `B[i] ^ B[i+8] ^ B[i+12]`, nibble i+4
takes `B[i+4] ^ B[i+12]`, and nibbles 8 to 15 stay. -/
def mix (b : Block) : Block :=
  Vector.ofFn fun i : Fin 16 =>
    if h : i.val < 4 then b[i] ^^^ b[i.val + 8] ^^^ b[i.val + 12]
    else if h : i.val < 8 then b[i] ^^^ b[i.val + 8]
    else b[i]

/-- TK[j] (R106): `KEY0` in slots 0 and 2, `KEY1` in slots 1 and 3, XOR the tweak, which slots 2 and 3 take permuted by
`PERM_Q`. The spec's C1 forbids taking `PERM_Q` for an involution. -/
def tk (c : Config) (k : Keys) : Fin 4 → Block
  | 0 => xorBlock k.key0 k.tweak
  | 1 => xorBlock k.key1 k.tweak
  | 2 => xorBlock k.key0 (gather c.permQ k.tweak)
  | 3 => xorBlock k.key1 (gather c.permQ k.tweak)

/-- `DTK[j] = mix(TK[j])` (R107). -/
def dtk (c : Config) (k : Keys) (slot : Fin 4) : Block := mix (tk c k slot)

/-- `RC_A[r]` (R104). Outside the table, where the spec gives no constant, a free value (log entry 3). -/
def roundConstA (c : Config) (r : Nat) : Nibble := c.rcA[r]?.getD (Config.beyondRcA r)

/-- `RC_B[r]` (R104). Outside the table a free value (log entry 3). -/
def roundConstB (c : Config) (r : Nat) : BitVec 3 := c.rcB[r]?.getD (Config.beyondRcB r)

/-- `arc(B, r)`, round-constant injection, round step 2 (R123): the 4-bit sequence into nibble 4, the 3-bit sequence,
zero-extended, into nibble 5. -/
def arc (c : Config) (b : Block) (r : Nat) : Block :=
  (b.set 4 (b[4] ^^^ roundConstA c r)).set 5 (b[5] ^^^ (roundConstB c r).setWidth 4)

/-- The slot of round index r: `r mod 4` (R108, R154). -/
def slotOf (r : Nat) : Fin 4 := ⟨r % 4, Nat.mod_lt r (by decide)⟩

/-- `atk(B, r)`, subkey injection, round step 3 (R108). -/
def atk (c : Config) (k : Keys) (b : Block) (r : Nat) : Block := xorBlock b (tk c k (slotOf r))

/-- `pn(B)`, nibble permutation, round step 4 (R125), in the direction `B'[PERM_P[i]] = B[i]`. -/
def pn (c : Config) (b : Block) : Block := scatter c.permP b

/-- `SBOX[x]` (R101). -/
def subNibble (c : Config) (x : Nibble) : Nibble := c.sbox[x.toNat]'(x.isLt)

/-- `sb(B)`, substitution, round step 5 (R127). -/
def sb (c : Config) (b : Block) : Block := Vector.ofFn fun i : Fin 16 => subNibble c b[i]

/-- `round(B, r) = sb( pn( atk( arc( mix(B), r ), r ) ) )` (R130). -/
def round (c : Config) (k : Keys) (b : Block) (r : Nat) : Block :=
  sb c (pn c (atk c k (arc c (mix b) r) r))

/-- Rounds 0 to R-1 in order: the atomic meaning of ENC R (R150). -/
def encrypt (c : Config) (k : Keys) (b : Block) : Nat → Block
  | 0 => b
  | count + 1 => round c k (encrypt c k b count) count

end Sys2Proof.Machine
end

