-- ==== Sys2Proof/Machine/Operands.lean ====
section
/-! DEFINITION. The operand forms: the data word of LD (00_scope.md R9, 30_encoding.md R77), the registers and views RD
names (20_memory.md R56, 43_host_transfer.md R172 to R176), and the schedule a command reads (10_state.md
R24, 40_tweakey.md R109). -/

namespace Sys2Proof.Machine

/-- The current KEY0, KEY1 and TWEAK, which TK and DTK follow combinationally (R24, R109). -/
def State.keys (s : State) : Keys := { key0 := s.key0, key1 := s.key1, tweak := s.tweak }

/-- The data operand of LD: `unpack(din)` at the accepting edge (R77, R171). -/
def dinBlock (s : State) : Block := unpack s.now.din

/-- The word RD puts into DOUT (R172), for a configuration. -/
def readSel (c : Config) (v : ReadSel) (s : State) : DataWord :=
  match v with
  | .block r => pack (s.block r)
  | .tk slot => pack (tk c s.keys slot)
  | .dtk slot => pack (dtk c s.keys slot)
  | .status => statusWord s

end Sys2Proof.Machine
end

