-- ==== Sys2Proof/Machine/Tables.lean ====
section
/-! DEFINITION. The default constant tables (40_tweakey.md R101 to R104) and `Config.hardware`, the
configuration of the spec's own hardware (00_scope.md R5). The spec marks the table values "[from
general knowledge, not in source]": PRESUMED, log entry 2. -/

namespace Sys2Proof

/-- `SBOX`, R101, the values for inputs 0x0 to 0xF in order. -/
def Config.defaultSbox : Vector Nibble 16 :=
  #v[0xC, 0xA, 0xD, 0x3, 0xE, 0xB, 0xF, 0x7, 0x8, 0x9, 0x1, 0x5, 0x0, 0x2, 0x4, 0x6]

/-- `PERM_P`, R102. -/
def Config.defaultPermP : Vector (Fin 16) 16 :=
  #v[15, 12, 13, 14, 10, 9, 8, 11, 6, 5, 4, 7, 1, 2, 3, 0]

/-- `PERM_Q`, R103: one 16-cycle, not an involution (C1). -/
def Config.defaultPermQ : Vector (Fin 16) 16 :=
  #v[12, 10, 15, 5, 14, 8, 9, 2, 11, 3, 7, 4, 6, 0, 1, 13]

/-- `RC_A`, R104, rounds 0 to 31. -/
def Config.defaultRcA : List Nibble :=
  [0x1, 0x8, 0x4, 0x2, 0x9, 0xC, 0x6, 0xB, 0x5, 0xA, 0xD, 0xE, 0xF, 0x7, 0x3, 0x1] ++
  [0x8, 0x4, 0x2, 0x9, 0xC, 0x6, 0xB, 0x5, 0xA, 0xD, 0xE, 0xF, 0x7, 0x3, 0x1, 0x8]

/-- `RC_B`, R104, rounds 0 to 31. -/
def Config.defaultRcB : List (BitVec 3) :=
  [1, 4, 2, 5, 6, 7, 3, 1, 4, 2, 5, 6, 7, 3, 1, 4] ++
  [2, 5, 6, 7, 3, 1, 4, 2, 5, 6, 7, 3, 1, 4, 2, 5]

/-- The parameters "which [are] what this spec's hardware takes" (R5): `MAX_ROUNDS` = 32 (D15),
`DTK_PRESENT` = true (D12), and the default tables. -/
def Config.hardware : Config where
  maxRounds := 32
  sbox := Config.defaultSbox
  permP := Config.defaultPermP
  permQ := Config.defaultPermQ
  rcA := Config.defaultRcA
  rcB := Config.defaultRcB
  dtkPresent := true

end Sys2Proof
end

