-- ==== Sys2Proof/WellFormed.lean ====
section
/-! DEFINITION. When a command's operands are in range (30_encoding.md R79, R80), for any configuration. The operand
types already exclude the other illegal words: LD names only a Block register, and RD only a code of R56. -/

namespace Sys2Proof

/-- The range checks of R80: "RD admits SEL 0..12, or 0..7 and 12 when `DTK_PRESENT` is false. ENC admits
RCNT ≤ `MAX_ROUNDS`. ARC and RND admit RIDX < `MAX_ROUNDS`" (R79). -/
def Instr.wf (c : Config) : Instr → Bool
  | .nop => true
  | .ld _ => true
  | .rd (.block _) => true
  | .rd (.tk _) => true
  | .rd (.dtk _) => c.dtkPresent
  | .rd .status => true
  | .enc count => decide (count.toNat ≤ c.maxRounds)
  | .mc => true
  | .arc index => decide (index.toNat < c.maxRounds)
  | .atk _ => true
  | .pn => true
  | .sb => true
  | .rnd index => decide (index.toNat < c.maxRounds)
  | .clrerr => true
  | .srst => true

end Sys2Proof
end

