-- ==== Sys2Proof/Machine/Encrypt.lean ====
section
/-! DEFINITION. ENC at the level of clock edges (42_encrypt.md R151): what the accepting edge does, and the round step of
each later edge while BUSY is 1. -/

namespace Sys2Proof.Machine

/-- The accepting edge of a legal ENC R (R151): "if R == 0: no state changes; else: BUSY <- 1; RCTR <- 0; RLIM <- R", with STATE
not yet changed. -/
def startEnc (count : Byte) (s : State) : State :=
  if count = 0#8 then s else s.setRun true 0#8 count

/-- ENC R: start the run for R ≤ `MAX_ROUNDS`, else ARG_RANGE (R150, R151). -/
def execEnc (count : Byte) (s : State) : Result :=
  whenInRange ((Instr.enc count).wf Config.hardware) .argRange s (startEnc count s)

/-- `enc_round_step()` (R151): one round with index RCTR, RCTR counts up, and BUSY falls when the count reaches RLIM
(log entry 8). -/
def encRoundStep (c : Config) (s : State) : State :=
  (s.setState (round c s.keys s.state s.rctr.toNat)).setRun (s.busy && s.rctr + 1#8 != s.rlim) (s.rctr + 1#8) s.rlim

end Sys2Proof.Machine
end

