-- ==== Sys2Proof/Machine/RoundSteps.lean ====
section
/-! DEFINITION. The meanings of the round steps MC, ARC, ATK, PN, SB and of the full round RND (41_round_ops.md R121
to R131, 40_tweakey.md R108). Each writes STATE only (R129). -/

namespace Sys2Proof.Machine

/-- MC: `STATE <- mix(STATE)` (R121). -/
def execMc (s : State) : Result := .next (s.setState (mix s.state))

/-- ARC r: `STATE <- arc(STATE, r)` for r < `MAX_ROUNDS`, else ARG_RANGE (R124). -/
def execArc (index : Byte) (s : State) : Result :=
  whenInRange ((Instr.arc index).wf Config.hardware) .argRange s
    (s.setState (arc Config.hardware s.state index.toNat))

/-- ATK r: `STATE <- atk(STATE, r)`, with slot `r mod 4`, for every r (R108). -/
def execAtk (index : Byte) (s : State) : Result :=
  .next (s.setState (atk Config.hardware s.keys s.state index.toNat))

/-- PN: `STATE <- pn(STATE)` (R126). -/
def execPn (s : State) : Result := .next (s.setState (pn Config.hardware s.state))

/-- SB: `STATE <- sb(STATE)` (R128). -/
def execSb (s : State) : Result := .next (s.setState (sb Config.hardware s.state))

/-- RND r: `STATE <- round(STATE, r)` for r < `MAX_ROUNDS`, else ARG_RANGE (R131). It leaves RCTR and BUSY alone. -/
def execRnd (index : Byte) (s : State) : Result :=
  whenInRange ((Instr.rnd index).wf Config.hardware) .argRange s
    (s.setState (round Config.hardware s.keys s.state index.toNat))

end Sys2Proof.Machine
end

