-- ==== Sys2Proof/Machine/Transfer.lean ====
section
/-! DEFINITION. The meanings of NOP, LD, RD, CLRERR and SRST (43_host_transfer.md R170 to R178). -/

namespace Sys2Proof.Machine

/-- NOP: "no state changes" (R170). -/
def execNop (s : State) : Result := .next s

/-- LD reg: the Block register takes `unpack(din)` (R171). -/
def execLd (reg : BlockReg) (s : State) : Result := .next (s.setBlock reg (dinBlock s))

/-- RD sel: DOUT takes the register or view (R172). A DTK slot needs `DTK_PRESENT` (R176), or the select code is rejected
with ILLEGAL_SEL. -/
def execRd (sel : ReadSel) (s : State) : Result :=
  whenInRange ((Instr.rd sel).wf Config.hardware) .illegalSel s (s.setDout (readSel Config.hardware sel s))

/-- CLRERR: ERR and ECODE become 0 (R177). -/
def execClrerr (s : State) : Result := .next (clearError s)

/-- SRST: `reset()`, as the `rst` input does (R178). -/
def execSrst (s : State) : Result := .next (resetCore s)

end Sys2Proof.Machine
end

