-- ==== Sys2Proof/Machine/Dispatch.lean ====
section
/-! DEFINITION. `exec`: one arm per command, each one call of the command's meaning (30_encoding.md R78). -/

namespace Sys2Proof.Machine

def exec (i : Instr) (s : State) : Host.Outcome State Fault Refusal :=
  match i with
  | .nop => Sys2Proof.Machine.execNop s
  | .ld reg => Sys2Proof.Machine.execLd reg s
  | .rd sel => Sys2Proof.Machine.execRd sel s
  | .enc count => Sys2Proof.Machine.execEnc count s
  | .mc => Sys2Proof.Machine.execMc s
  | .arc index => Sys2Proof.Machine.execArc index s
  | .atk index => Sys2Proof.Machine.execAtk index s
  | .pn => Sys2Proof.Machine.execPn s
  | .sb => Sys2Proof.Machine.execSb s
  | .rnd index => Sys2Proof.Machine.execRnd index s
  | .clrerr => Sys2Proof.Machine.execClrerr s
  | .srst => Sys2Proof.Machine.execSrst s

end Sys2Proof.Machine
end

