-- ==== Sys2Proof/Decode.lean ====
section
/-! DEFINITION. Decode of a command word (30_encoding.md R71 to R83), total on all 2^32 words, for any configuration; the
encoder, written from the same tables; and the rows of spec/opcode_table.json (R79). -/

namespace Sys2Proof

/-- The operations of the map of R78. -/
inductive Op where
  | nop | ld | rd | enc | mc | arc | atk | pn | sb | rnd | clrerr | srst
  deriving DecidableEq, Repr

/-- What decode yields (R80): one operation with its operands, or one error code. -/
inductive Decoded where
  | command (i : Instr)
  | error (e : CmdError)
  deriving DecidableEq, Repr

/-- OP = `cmd[31:28]` (R72). -/
def opField (w : CmdWord) : BitVec 4 := w.extractLsb' 28 4

/-- SEL = `cmd[27:24]` (R73). -/
def selField (w : CmdWord) : BitVec 4 := w.extractLsb' 24 4

/-- RSV = `cmd[23:16]` (R74). -/
def rsvField (w : CmdWord) : Byte := w.extractLsb' 16 8

/-- RIDX = `cmd[15:8]` (R75). -/
def ridxField (w : CmdWord) : Byte := w.extractLsb' 8 8

/-- RCNT = `cmd[7:0]` (R76). -/
def rcntField (w : CmdWord) : Byte := w.extractLsb' 0 8

/-- The opcode map of R78. The values 0xA to 0xD are reserved (R81). -/
def Op.ofField (op : BitVec 4) : Option Op :=
  match op.toNat with
  | 0x0 => some .nop
  | 0x1 => some .ld
  | 0x2 => some .rd
  | 0x3 => some .enc
  | 0x4 => some .mc
  | 0x5 => some .arc
  | 0x6 => some .atk
  | 0x7 => some .pn
  | 0x8 => some .sb
  | 0x9 => some .rnd
  | 0xE => some .clrerr
  | 0xF => some .srst
  | _ => none

/-- The OP value of an operation (R78). -/
def Op.field : Op → BitVec 4
  | .nop => 0x0
  | .ld => 0x1
  | .rd => 0x2
  | .enc => 0x3
  | .mc => 0x4
  | .arc => 0x5
  | .atk => 0x6
  | .pn => 0x7
  | .sb => 0x8
  | .rnd => 0x9
  | .clrerr => 0xE
  | .srst => 0xF

/-- The select codes LD accepts: 0 to 3 (R56, R171). -/
def BlockReg.ofSel (sel : BitVec 4) : Option BlockReg :=
  match sel.toNat with
  | 0 => some .state
  | 1 => some .key0
  | 2 => some .key1
  | 3 => some .tweak
  | _ => none

/-- The select code of a Block register (R56). -/
def BlockReg.sel : BlockReg → BitVec 4
  | .state => 0
  | .key0 => 1
  | .key1 => 2
  | .tweak => 3

/-- The select codes of RD: 0 to 12 (R56, R172). Codes 13 to 15 are reserved. -/
def ReadSel.ofSel (sel : BitVec 4) : Option ReadSel :=
  match sel.toNat with
  | 0 => some (.block .state)
  | 1 => some (.block .key0)
  | 2 => some (.block .key1)
  | 3 => some (.block .tweak)
  | 4 => some (.tk 0)
  | 5 => some (.tk 1)
  | 6 => some (.tk 2)
  | 7 => some (.tk 3)
  | 8 => some (.dtk 0)
  | 9 => some (.dtk 1)
  | 10 => some (.dtk 2)
  | 11 => some (.dtk 3)
  | 12 => some .status
  | _ => none

/-- The select code of a register or view (R56). -/
def ReadSel.sel : ReadSel → BitVec 4
  | .block r => r.sel
  | .tk slot => 4 + BitVec.ofNat 4 slot.val
  | .dtk slot => 8 + BitVec.ofNat 4 slot.val
  | .status => 12

/-- R80's check that the fields an operation does not use are 0: "if sel != 0 or ...: raise CmdError(RSVD_NONZERO)". -/
def unlessNonzero (unusedZero : Bool) (d : Decoded) : Decoded :=
  if unusedZero then d else .error .rsvdNonzero

/-- The operand part of R80, for an operation whose RSV field is 0: first the unused fields, then the register
select, then the value range (the order of R204). -/
def decodeOperands (c : Config) (op : Op) (sel : BitVec 4) (ridx rcnt : Byte) : Decoded :=
  match op with
  | .nop => unlessNonzero (sel == 0 && ridx == 0 && rcnt == 0) (.command .nop)
  | .ld => unlessNonzero (ridx == 0 && rcnt == 0)
      (match BlockReg.ofSel sel with
        | some r => .command (.ld r)
        | none => .error .illegalSel)
  | .rd => unlessNonzero (ridx == 0 && rcnt == 0)
      (match ReadSel.ofSel sel with
        | some v => if (Instr.rd v).wf c then .command (.rd v) else .error .illegalSel
        | none => .error .illegalSel)
  | .enc => unlessNonzero (sel == 0 && ridx == 0)
      (if rcnt.toNat ≤ c.maxRounds then .command (.enc rcnt) else .error .argRange)
  | .mc => unlessNonzero (sel == 0 && ridx == 0 && rcnt == 0) (.command .mc)
  | .arc => unlessNonzero (sel == 0 && rcnt == 0)
      (if ridx.toNat < c.maxRounds then .command (.arc ridx) else .error .argRange)
  | .atk => unlessNonzero (sel == 0 && rcnt == 0) (.command (.atk ridx))
  | .pn => unlessNonzero (sel == 0 && ridx == 0 && rcnt == 0) (.command .pn)
  | .sb => unlessNonzero (sel == 0 && ridx == 0 && rcnt == 0) (.command .sb)
  | .rnd => unlessNonzero (sel == 0 && rcnt == 0)
      (if ridx.toNat < c.maxRounds then .command (.rnd ridx) else .error .argRange)
  | .clrerr => unlessNonzero (sel == 0 && ridx == 0 && rcnt == 0) (.command .clrerr)
  | .srst => unlessNonzero (sel == 0 && ridx == 0 && rcnt == 0) (.command .srst)

/-- Decode (R80), for a configuration: ILLEGAL_OP first, then RSVD_NONZERO, then the operands. -/
def decodeIn (c : Config) (w : CmdWord) : Decoded :=
  match Op.ofField (opField w) with
  | none => .error .illegalOp
  | some op =>
    if rsvField w = 0 then decodeOperands c op (selField w) (ridxField w) (rcntField w)
    else .error .rsvdNonzero

/-- Decode on the spec's own hardware (the defaults of R5). -/
def decode (w : CmdWord) : Decoded := decodeIn Config.hardware w

/-- The operation of a command. -/
def Instr.op : Instr → Op
  | .nop => .nop
  | .ld _ => .ld
  | .rd _ => .rd
  | .enc _ => .enc
  | .mc => .mc
  | .arc _ => .arc
  | .atk _ => .atk
  | .pn => .pn
  | .sb => .sb
  | .rnd _ => .rnd
  | .clrerr => .clrerr
  | .srst => .srst

/-- The SEL field of a command (R79): 0 but for LD and RD. -/
def Instr.selBits : Instr → BitVec 4
  | .ld reg => reg.sel
  | .rd sel => sel.sel
  | .nop | .enc _ | .mc | .arc _ | .atk _ | .pn | .sb | .rnd _ | .clrerr | .srst => 0

/-- The RIDX field of a command (R79): 0 but for ARC, ATK and RND. -/
def Instr.ridxBits : Instr → Byte
  | .arc index => index
  | .atk index => index
  | .rnd index => index
  | .nop | .ld _ | .rd _ | .enc _ | .mc | .pn | .sb | .clrerr | .srst => 0

/-- The RCNT field of a command (R79): 0 but for ENC. -/
def Instr.rcntBits : Instr → Byte
  | .enc count => count
  | .nop | .ld _ | .rd _ | .mc | .arc _ | .atk _ | .pn | .sb | .rnd _ | .clrerr | .srst => 0

/-- The word of a command: OP, SEL, RSV = 0, RIDX, RCNT from the most significant bit down (R71). -/
def encode (i : Instr) : CmdWord :=
  i.op.field ++ i.selBits ++ (0 : Byte) ++ i.ridxBits ++ i.rcntBits

/-- A row of the table of R79. -/
structure PatternRow where
  op : Op
  pattern : CmdWord
  mask : CmdWord
  deriving DecidableEq, Repr

/-- "A word matches a row when `(cmd & mask) == match`" (R79). -/
def PatternRow.matchesWord (row : PatternRow) (w : CmdWord) : Bool := w &&& row.mask == row.pattern

/-- The rows of R79, in its order. -/
def patternRows : List PatternRow :=
  [⟨.nop, 0x00000000, 0xFFFFFFFF⟩, ⟨.ld, 0x10000000, 0xF0FFFFFF⟩, ⟨.rd, 0x20000000, 0xF0FFFFFF⟩,
   ⟨.enc, 0x30000000, 0xFFFFFF00⟩, ⟨.mc, 0x40000000, 0xFFFFFFFF⟩, ⟨.arc, 0x50000000, 0xFFFF00FF⟩] ++
  [⟨.atk, 0x60000000, 0xFFFF00FF⟩, ⟨.pn, 0x70000000, 0xFFFFFFFF⟩, ⟨.sb, 0x80000000, 0xFFFFFFFF⟩,
   ⟨.rnd, 0x90000000, 0xFFFF00FF⟩, ⟨.clrerr, 0xE0000000, 0xFFFFFFFF⟩, ⟨.srst, 0xF0000000, 0xFFFFFFFF⟩]

/-- The word the host means by `w`, `nbits` bits wide: a command is one 32-bit word (R70, R83). -/
def tableWord (nbits w : Nat) : CmdWord := BitVec.ofNat 32 (w % 2 ^ nbits)

/-- The instruction the decoder reads from a word of the opcode table. -/
def decodeTableWord (nbits w : Nat) : Option Instr :=
  match decode (tableWord nbits w) with
  | .command i => some i
  | .error _ => none

end Sys2Proof
end

