-- ==== Sys2Proof/Machine/Ports.lean ====
section
/-! DEFINITION. The ports and the handshake (30_encoding.md R85 to R87): what an edge does, the output ports, and the move
to the next edge. -/

namespace Sys2Proof.Machine

/-- What one rising edge does (R86). -/
inductive EdgeEvent where
  | reset
  | encRound
  | accept (cmd : CmdWord)
  | idle
  deriving DecidableEq, Repr

/-- "The core does exactly one of the following, tried in this order": reset, a round of a running ENC, the acceptance of a
command, nothing (R86, R208). -/
def edgeEvent (s : State) : EdgeEvent :=
  if s.now.rst then .reset
  else if s.busy then .encRound
  else if s.now.cmdValid then .accept s.now.cmd
  else .idle

/-- The edge has passed: the next port values are those of the next edge (log entry 1). -/
def nextEdge (s : State) : State := s.setInputs s.inputs.tail

/-- The same after a command, if it answered a next state. -/
def finishEdge : Result → Result
  | .next s => .next (nextEdge s)
  | .fault r => .fault r
  | .refused r => .refused r

/-- `cmd_ready = (BUSY == 0) and (rst == 0)`, combinationally (R87). -/
def cmdReady (s : State) : Bool := !s.busy && !s.now.rst

/-- A command is accepted at the next edge: "exactly when `cmd_valid` and `cmd_ready` are both 1 there" (R87). -/
def accepts (s : State) : Bool := s.now.cmdValid && cmdReady s

/-- The `dout` port: the value of DOUT (R85, R25). -/
def doutPort (s : State) : DataWord := s.dout

/-- The `busy` port: the value of BUSY (R85, R29). -/
def busyPort (s : State) : Bool := s.busy

/-- The `err` port: the value of STATUS.ERR (R85, R27). -/
def errPort (s : State) : Bool := s.err

/-- The port values that present the command word `w` with data word `d`. -/
def present (w : CmdWord) (d : DataWord) : PortIn := { rst := false, cmdValid := true, cmd := w, din := d }

/-- The state in which the word `w` is what the next edge accepts: it stands on `cmd` at that edge, valid, with `rst` low, and
no ENC is running. `din` and everything else stay. -/
def presentNext (s : State) (w : CmdWord) : State :=
  (s.setInputs (present w s.now.din :: s.inputs.tail)).setRun false s.rctr s.rlim

end Sys2Proof.Machine
end

