-- ==== Sys2Proof/Machine/Step.lean ====
section
/-! DEFINITION. `step`: one rising edge of `clk` (30_encoding.md R86). -/

namespace Sys2Proof.Machine

/-- The clocked step (R86). A word decode rejects is accepted all the same, and its error recorded (R202). -/
def step (s : State) : Host.Outcome State Fault Refusal :=
  match edgeEvent s with
  | .reset => .next (nextEdge (resetCore s))
  | .encRound => .next (nextEdge (encRoundStep Config.hardware s))
  | .accept cmd =>
    match decode cmd with
    | .error e => .next (nextEdge (recordError e s))
    | .command i => finishEdge (exec i s)
  | .idle => .next (nextEdge s)

/-- `s` with the command of `nbits` bits `w` presented to the core at the next edge (log entry 6). -/
def State.withFetchWord (s : State) (nbits w : Nat) : State := presentNext s (tableWord nbits w)

end Sys2Proof.Machine
end

