-- ==== Sys2Proof/Machine/Timing.lean ====
section
/-! DEFINITION. Cycle counts (70_reset_and_hazards.md R260, R261), and a host that waits for `cmd_ready` after each command
(43_host_transfer.md R179). -/

namespace Sys2Proof.Machine

/-- For how many edges after its acceptance a word keeps `busy` high (R260): R for a legal ENC R, else 0. -/
def busyCycles (c : Config) (w : CmdWord) : Nat :=
  match decodeIn c w with
  | .command (.enc count) => count.toNat
  | .command _ => 0
  | .error _ => 0

/-- "Edges from acceptance until the next command can be accepted" (R260): R + 1 for ENC R, 1 for every other command and
for a rejected word. -/
def cycles (c : Config) (w : CmdWord) : Nat := busyCycles c w + 1

/-- The port values of a host that presents the words in order with their data words, and after each of them waits with
`cmd_valid` deasserted until `cmd_ready` is 1 again (R179, "wait for ENC"). -/
def drive (c : Config) (l : List (CmdWord × DataWord)) : List PortIn :=
  l.flatMap fun p => present p.1 p.2 :: List.replicate (busyCycles c p.1) PortIn.idle

end Sys2Proof.Machine
end

