-- ==== Sys2Proof/Machine/Assembler.lean ====
section
/-! DEFINITION. The assembler (30_encoding.md R88) and the pseudo-instructions (R89), as the words and data words they put on
the ports. -/

namespace Sys2Proof.Machine

/-- One line: a command, with the value LD puts on `din`, or `.WORD` (R88). -/
inductive AsmLine where
  | command (i : Instr) (value : DataWord)
  | word (w : CmdWord)
  deriving DecidableEq, Repr

/-- The data word of a line's command: "places the LD value on `din` and sets `din` to 0 for every other command" (R88). -/
def dataOf (i : Instr) (value : DataWord) : DataWord :=
  match i with
  | .ld _ => value
  | .nop | .rd _ | .enc _ | .mc | .arc _ | .atk _ | .pn | .sb | .rnd _ | .clrerr | .srst => 0

/-- A line's command word and data word. "The assembler refuses an operand outside the range", and `.WORD` "emits any 32-bit
word unchecked" (R88). -/
def assembleLine (c : Config) : AsmLine → Option (CmdWord × DataWord)
  | .command i value => if i.wf c then some (encode i, dataOf i value) else none
  | .word w => some (w, 0)

/-- A text's words in order, or nothing if one line is refused. -/
def assemble (c : Config) : List AsmLine → Option (List (CmdWord × DataWord))
  | [] => some []
  | line :: rest =>
    match assembleLine c line, assemble c rest with
    | some p, some l => some (p :: l)
    | _, _ => none

/-- The pseudo-instructions of R89. -/
inductive Pseudo where
  | setkt (k0 k1 t : DataWord)
  | encrypt (p : DataWord) (count : Byte)
  | stepround (index : Byte)
  | linround (index : Byte)
  deriving DecidableEq, Repr

/-- Their expansions (R89). -/
def expand : Pseudo → List AsmLine
  | .setkt k0 k1 t => [.command (.ld .key0) k0, .command (.ld .key1) k1, .command (.ld .tweak) t]
  | .encrypt p count => [.command (.ld .state) p, .command (.enc count) 0, .command (.rd (.block .state)) 0]
  | .stepround index =>
    [.command .mc 0, .command (.arc index) 0, .command (.atk index) 0, .command .pn 0, .command .sb 0]
  | .linround index => [.command .mc 0, .command (.arc index) 0, .command (.atk index) 0]

end Sys2Proof.Machine
end

