-- ==== Sys2Proof/Safety.lean ====
section
/-! DEFINITION. The terms of the claims: several edges in a row, what the core accepts and rejects at an edge, the states
the rules allow after a reset, the four checks of decode, and the host's duty on the command port. -/

namespace Sys2Proof.Machine

/-- `n` rising edges in a row. -/
def edges : Nat → State → Result
  | 0, s => .next s
  | n + 1, s =>
    match step s with
    | .next t => edges n t
    | .fault r => .fault r
    | .refused r => .refused r

/-- The next edge accepts a word that decodes to the command `i`. -/
def AcceptsCommand (s : State) (i : Instr) : Prop := accepts s = true ∧ decode s.now.cmd = .command i

/-- The next edge accepts a word that decode rejects with the error `e`. -/
def Rejects (s : State) (e : CmdError) : Prop := accepts s = true ∧ decode s.now.cmd = .error e

/-- The next edge clears STATUS: "CLRERR, SRST and reset clear it" (R26). -/
def ClearsStatus (s : State) : Prop :=
  s.now.rst = true ∨ AcceptsCommand s .clrerr ∨ AcceptsCommand s .srst

/-- Every register holds its reset value: the table of R251. -/
def RegistersReset (s : State) : Prop :=
  s.state = zeroBlock ∧ s.key0 = zeroBlock ∧ s.key1 = zeroBlock ∧ s.tweak = zeroBlock ∧ s.dout = 0 ∧
    s.err = false ∧ s.ecode = 0 ∧ s.busy = false ∧ s.rctr = 0 ∧ s.rlim = 0

/-- `t` differs from `s` in STATUS at most, and the edge has passed (R203). -/
def OnlyStatusChanged (s t : State) : Prop := t = { s with err := t.err, ecode := t.ecode, inputs := s.inputs.tail }

/-- ECODE holds a code of R201, and "ECODE is 0 exactly when ERR is 0" (R28). -/
def StatusLegal (s : State) : Prop := (s.err = false ↔ s.ecode = 0) ∧ s.ecode.toNat ≤ 4

/-- RLIM is a legal round count; RCTR is below it while an ENC runs (R30, R151), and equal to it otherwise (R156, and the reset
values of R251). -/
def RunLegal (s : State) : Prop :=
  s.rlim.toNat ≤ Config.hardware.maxRounds ∧
    (s.busy = true → s.rctr.toNat < s.rlim.toNat) ∧ (s.busy = false → s.rctr = s.rlim)

/-- The states the rules allow after a reset. -/
def Legal (s : State) : Prop := StatusLegal s ∧ RunLegal s

/-- The cause of ILLEGAL_OP: OP in 0xA..0xD (R201). -/
abbrev FailsOp (w : CmdWord) : Prop :=
  w.extractLsb' 28 4 = 0xA ∨ w.extractLsb' 28 4 = 0xB ∨ w.extractLsb' 28 4 = 0xC ∨ w.extractLsb' 28 4 = 0xD

/-- The cause of RSVD_NONZERO for a defined OP: the word matches no row of the table of R79, so RSV or a field the operation
does not use is nonzero (R79, R201). -/
abbrev FailsReserved (w : CmdWord) : Prop := ∀ row ∈ patternRows, row.matchesWord w = false

/-- The cause of ILLEGAL_SEL: "LD with SEL > 3. RD with SEL > 12, or with SEL in 8..11 when `DTK_PRESENT` is false" (R201). -/
abbrev FailsSel (c : Config) (w : CmdWord) : Prop :=
  (w.extractLsb' 28 4 = 0x1 ∧ 3 < (w.extractLsb' 24 4).toNat) ∨
    (w.extractLsb' 28 4 = 0x2 ∧ (12 < (w.extractLsb' 24 4).toNat ∨
      (8 ≤ (w.extractLsb' 24 4).toNat ∧ (w.extractLsb' 24 4).toNat ≤ 11 ∧ c.dtkPresent = false)))

/-- The cause of ARG_RANGE: "ENC with RCNT > `MAX_ROUNDS`; ARC or RND with RIDX ≥ `MAX_ROUNDS`" (R201). -/
abbrev FailsRange (c : Config) (w : CmdWord) : Prop :=
  (w.extractLsb' 28 4 = 0x3 ∧ c.maxRounds < (w.extractLsb' 0 8).toNat) ∨
    ((w.extractLsb' 28 4 = 0x5 ∨ w.extractLsb' 28 4 = 0x9) ∧ c.maxRounds ≤ (w.extractLsb' 8 8).toNat)

/-- The host's duty at an edge that does not accept a presented command: "While `cmd_valid` is 1 and `cmd_ready` is 0, the host
must hold `cmd` and `din` stable until an edge accepts them" (R87). -/
def HostHolds (s : State) : Prop :=
  s.now.cmdValid = true → cmdReady s = false →
    (nextEdge s).now.cmdValid = true ∧ (nextEdge s).now.cmd = s.now.cmd ∧ (nextEdge s).now.din = s.now.din

end Sys2Proof.Machine
end

