-- ==== Sys2Proof/Certificates/Slice0/Obligations.lean ====
section
/-! DEFINITION. The statements for the provers. Each docstring names the rules of spec/ it formalises. -/

open Sys2Proof Sys2Proof.Machine

/-! ## Reset, the clocked step and the handshake -/

/-- R250, R251: what `reset()` leaves, at a reset edge and after SRST, and that TK and DTK are then zero. -/
def Obligations.ResetSetsEveryRegister : Prop :=
  RegistersReset State.reset ∧
  (∀ (c : Config) (s : State) (j : Fin 4), RegistersReset s →
    tk c s.keys j = zeroBlock ∧ dtk c s.keys j = zeroBlock) ∧
  (∀ s : State, s.now.rst = true → accepts s = false ∧
    ∃ t, step s = .next t ∧ RegistersReset t ∧ t.inputs = s.inputs.tail ∧
      (t.now.rst = false → cmdReady t = true)) ∧
  (∀ s : State, ∃ t, exec .srst s = .next t ∧ RegistersReset t ∧ t.inputs = s.inputs)

/-- R253: a reset while an ENC runs aborts it, STATE becomes 0, the rounds not yet applied are never applied, and no
error is reported. -/
def Obligations.ResetAbortsRunningEnc : Prop :=
  ∀ (s : State) (x : PortIn) (xs rest : List PortIn),
    s.busy = true → s.inputs = x :: (xs ++ rest) → x.rst = true →
    (∀ y ∈ xs, y.rst = false ∧ y.cmdValid = false) →
    ∃ t, edges (xs.length + 1) s = .next t ∧ RegistersReset t ∧ t.inputs = rest

/-- R86: an edge takes the first case that holds: reset, a round of a running ENC, the acceptance of a word, nothing. -/
def Obligations.EdgeTakesFirstCase : Prop :=
  ∀ s : State,
    (s.now.rst = true → step s = .next (nextEdge (resetCore s))) ∧
    (s.now.rst = false → s.busy = true → step s = .next (nextEdge (encRoundStep Config.hardware s))) ∧
    (s.now.rst = false → s.busy = false → s.now.cmdValid = true → ∀ e, decode s.now.cmd = .error e →
      step s = .next (nextEdge (recordError e s))) ∧
    (s.now.rst = false → s.busy = false → s.now.cmdValid = true → ∀ i, decode s.now.cmd = .command i →
      ∃ t, exec i s = .next t ∧ step s = .next (nextEdge t)) ∧
    (s.now.rst = false → s.busy = false → s.now.cmdValid = false → step s = .next (nextEdge s))

/-- R86, R87: when the word on the port decodes to a command, and it is accepted, the step is `exec` of that command, and the
edge has passed. -/
def Obligations.StepRunsDecodedCommand : Prop :=
  ∀ (s : State) (i : Instr), s.now.rst = false → s.busy = false → s.now.cmdValid = true →
    decode s.now.cmd = .command i →
    ∃ t, exec i s = .next t ∧ t.inputs = s.inputs ∧ step s = .next { t with inputs := s.inputs.tail }

/-- R200: the core never traps and never stops, in any state, whatever stands on its ports. -/
def Obligations.EveryEdgeAnswersNext : Prop :=
  ∀ s : State, ∃ t, step s = .next t ∧ t.inputs = s.inputs.tail

/-- R214: with BUSY 0 and no command presented, the core holds its state unchanged. -/
def Obligations.IdleCoreHoldsItsState : Prop :=
  ∀ (n : Nat) (s : State), s.busy = false →
    (∀ x ∈ s.inputs.take n, x.rst = false ∧ x.cmdValid = false) →
    edges n s = .next { s with inputs := s.inputs.drop n }

/-- R87, R255: while `cmd_ready` is 0, what stands on `cmd_valid`, `cmd` and `din` has no effect. -/
def Obligations.UnreadyCoreIgnoresCommandPort : Prop :=
  ∀ (s : State) (x y : PortIn) (rest : List PortIn), x.rst = y.rst →
    cmdReady (s.setInputs (x :: rest)) = false →
    step (s.setInputs (x :: rest)) = step (s.setInputs (y :: rest))

/-- R87, R179: a command the host holds stable during an ENC is accepted, with its word and its data word, at the first edge
after the ENC's rounds. -/
def Obligations.HeldCommandIsAcceptedAfterEnc : Prop :=
  ∀ s : State, Legal s → s.busy = true → s.now.cmdValid = true →
    (∀ (k : Nat) (u : State), k < s.rlim.toNat - s.rctr.toNat → edges k s = .next u →
      u.now.rst = false ∧ HostHolds u) →
    ∃ t, edges (s.rlim.toNat - s.rctr.toNat) s = .next t ∧ t.busy = false ∧ t.now.cmdValid = true ∧
      t.now.cmd = s.now.cmd ∧ t.now.din = s.now.din ∧ (t.now.rst = false → accepts t = true)

/-- R84: `din` has no effect at an edge that does not accept an LD. -/
def Obligations.DinIsReadByLdOnly : Prop :=
  ∀ (s : State) (x : PortIn) (d : DataWord) (rest : List PortIn),
    (∀ r, ¬ AcceptsCommand (s.setInputs (x :: rest)) (.ld r)) →
    step (s.setInputs ({ x with din := d } :: rest)) = step (s.setInputs (x :: rest))

/-! ## Invariants -/

/-- R251, R28, R156: the reset state is legal. -/
def Obligations.ResetStateIsLegal : Prop := Legal State.reset

/-- R26, R28, R30, R151, R156: every edge leads from a legal state to a legal one. ECODE stays a code of R201 and is 0 exactly
when ERR is 0; RCTR stays below RLIM while an ENC runs, equals it otherwise, and never passes `MAX_ROUNDS`. -/
def Obligations.EveryEdgeKeepsLegalStates : Prop :=
  ∀ s t : State, Legal s → step s = .next t → Legal t

/-- The write columns of R35: a register changes only at an edge that resets, runs a round of an ENC (STATE, BUSY, RCTR, RLIM), or
accepts one of the commands that R35 lets write it; STATUS also when a word is rejected. -/
def Obligations.RegistersChangeOnlyByTheirWriters : Prop :=
  ∀ s t : State, step s = .next t →
    (t.key0 ≠ s.key0 → s.now.rst = true ∨ AcceptsCommand s (.ld .key0) ∨ AcceptsCommand s .srst) ∧
    (t.key1 ≠ s.key1 → s.now.rst = true ∨ AcceptsCommand s (.ld .key1) ∨ AcceptsCommand s .srst) ∧
    (t.tweak ≠ s.tweak → s.now.rst = true ∨ AcceptsCommand s (.ld .tweak) ∨ AcceptsCommand s .srst) ∧
    (t.dout ≠ s.dout → s.now.rst = true ∨ (∃ v, AcceptsCommand s (.rd v)) ∨ AcceptsCommand s .srst) ∧
    (t.err ≠ s.err ∨ t.ecode ≠ s.ecode → ClearsStatus s ∨ ∃ e, Rejects s e) ∧
    (t.state ≠ s.state → s.now.rst = true ∨ s.busy = true ∨ AcceptsCommand s (.ld .state) ∨ AcceptsCommand s .mc ∨
      (∃ r, AcceptsCommand s (.arc r)) ∨ (∃ r, AcceptsCommand s (.atk r)) ∨ AcceptsCommand s .pn ∨
      AcceptsCommand s .sb ∨ (∃ r, AcceptsCommand s (.rnd r)) ∨ AcceptsCommand s .srst) ∧
    (t.busy ≠ s.busy ∨ t.rctr ≠ s.rctr ∨ t.rlim ≠ s.rlim → s.now.rst = true ∨ s.busy = true ∨
      (∃ n, AcceptsCommand s (.enc n)) ∨ AcceptsCommand s .srst)

/-! ## Decode and encode -/

/-- R79, R80: decode of the word of a command whose operands are in range is that command, in every configuration. -/
def Obligations.DecodeOfEncodeIsTheCommand : Prop :=
  ∀ (c : Config) (i : Instr), i.wf c = true → decodeIn c (encode i) = .command i

/-- R79, R80: a word that decodes to a command is the command's own word, and the operands are in range. No two words mean one
command. -/
def Obligations.DecodedWordIsTheCommandsWord : Prop :=
  ∀ (c : Config) (w : CmdWord) (i : Instr), decodeIn c w = .command i → encode i = w ∧ i.wf c = true

/-- R81: a word is rejected with ILLEGAL_OP exactly when its OP is 0xA to 0xD, whatever its other bits. -/
def Obligations.ReservedOpcodesAreIllegal : Prop :=
  ∀ (c : Config) (w : CmdWord), decodeIn c w = .error .illegalOp ↔ FailsOp w

/-- R204: the code of a rejected word is the first failing check's, in the order ILLEGAL_OP, RSVD_NONZERO, ILLEGAL_SEL, ARG_RANGE,
and a word that fails none is a command. -/
def Obligations.ErrorCodeIsTheFirstFailingCheck : Prop :=
  (∀ (c : Config) (w : CmdWord),
    (FailsOp w → decodeIn c w = .error .illegalOp) ∧
    (¬ FailsOp w → FailsReserved w → decodeIn c w = .error .rsvdNonzero) ∧
    (¬ FailsOp w → ¬ FailsReserved w → FailsSel c w → decodeIn c w = .error .illegalSel) ∧
    (¬ FailsOp w → ¬ FailsReserved w → ¬ FailsSel c w → FailsRange c w → decodeIn c w = .error .argRange) ∧
    (¬ FailsOp w → ¬ FailsReserved w → ¬ FailsSel c w → ¬ FailsRange c w → ∃ i, decodeIn c w = .command i)) ∧
  decode 0xA1FF0000 = .error .illegalOp ∧ decode 0x1F010000 = .error .rsvdNonzero ∧
  decode 0x1F000000 = .error .illegalSel ∧ decode 0x50002000 = .error .argRange

/-- R74: a defined OP with RSV ≠ 0 is rejected with RSVD_NONZERO. -/
def Obligations.NonzeroReservedFieldIsRejected : Prop :=
  ∀ (c : Config) (w : CmdWord), ¬ FailsOp w → w.extractLsb' 16 8 ≠ 0 → decodeIn c w = .error .rsvdNonzero

/-- R56: which select codes LD and RD accept, what each names, and that every other code is rejected with ILLEGAL_SEL. -/
def Obligations.SelectMap : Prop :=
  ∀ c : Config,
    (∀ sel : BitVec 4, decodeIn c (0x1#4 ++ sel ++ 0x000000#24) =
      match sel.toNat with
      | 0 => .command (.ld .state)
      | 1 => .command (.ld .key0)
      | 2 => .command (.ld .key1)
      | 3 => .command (.ld .tweak)
      | _ => .error .illegalSel) ∧
    (∀ sel : BitVec 4, decodeIn c (0x2#4 ++ sel ++ 0x000000#24) =
      match sel.toNat with
      | 0 => .command (.rd (.block .state))
      | 1 => .command (.rd (.block .key0))
      | 2 => .command (.rd (.block .key1))
      | 3 => .command (.rd (.block .tweak))
      | 4 => .command (.rd (.tk 0))
      | 5 => .command (.rd (.tk 1))
      | 6 => .command (.rd (.tk 2))
      | 7 => .command (.rd (.tk 3))
      | 8 => if c.dtkPresent then .command (.rd (.dtk 0)) else .error .illegalSel
      | 9 => if c.dtkPresent then .command (.rd (.dtk 1)) else .error .illegalSel
      | 10 => if c.dtkPresent then .command (.rd (.dtk 2)) else .error .illegalSel
      | 11 => if c.dtkPresent then .command (.rd (.dtk 3)) else .error .illegalSel
      | 12 => .command (.rd .status)
      | _ => .error .illegalSel)

/-- R75: the round index. ARC and RND take r < `MAX_ROUNDS` and reject a larger one with ARG_RANGE; ATK takes every r and uses r mod
4; every other operation rejects a nonzero RIDX. -/
def Obligations.RoundIndexField : Prop :=
  (∀ (c : Config) (r : Byte),
    decodeIn c (0x5000#16 ++ r ++ 0x00#8) =
      (if r.toNat < c.maxRounds then .command (.arc r) else .error .argRange) ∧
    decodeIn c (0x9000#16 ++ r ++ 0x00#8) =
      (if r.toNat < c.maxRounds then .command (.rnd r) else .error .argRange) ∧
    decodeIn c (0x6000#16 ++ r ++ 0x00#8) = .command (.atk r)) ∧
  (∀ (r : Byte) (s : State), exec (.atk r) s = exec (.atk (BitVec.ofNat 8 (r.toNat % 4))) s) ∧
  (∀ (c : Config) (w : CmdWord), ¬ FailsOp w →
    w.extractLsb' 28 4 ≠ 0x5 → w.extractLsb' 28 4 ≠ 0x6 → w.extractLsb' 28 4 ≠ 0x9 →
    w.extractLsb' 8 8 ≠ 0 → decodeIn c w = .error .rsvdNonzero)

/-- R76: the round count. ENC takes R ≤ `MAX_ROUNDS`, 0 included, and rejects a larger one with ARG_RANGE; every other operation
rejects a nonzero RCNT. -/
def Obligations.RoundCountField : Prop :=
  (∀ (c : Config) (n : Byte), decodeIn c (0x300000#24 ++ n) =
    (if n.toNat ≤ c.maxRounds then .command (.enc n) else .error .argRange)) ∧
  (∀ c : Config, decodeIn c 0x30000000 = .command (.enc 0)) ∧
  (∀ (c : Config) (w : CmdWord), ¬ FailsOp w → w.extractLsb' 28 4 ≠ 0x3 →
    w.extractLsb' 0 8 ≠ 0 → decodeIn c w = .error .rsvdNonzero)

/-- A few words of the V-DEC table of 95_test_vectors.md, at least one of each operation. -/
def Obligations.SampleWordsDecode : Prop :=
  decode 0x00000000 = .command .nop ∧ decode 0x13000000 = .command (.ld .tweak) ∧
  decode 0x28000000 = .command (.rd (.dtk 0)) ∧ decode 0x2C000000 = .command (.rd .status) ∧
  decode 0x30000020 = .command (.enc 32) ∧ decode 0x40000000 = .command .mc ∧
  decode 0x50001F00 = .command (.arc 31) ∧ decode 0x6000FF00 = .command (.atk 255) ∧
  decode 0x70000000 = .command .pn ∧ decode 0x80000000 = .command .sb ∧
  decode 0x90001F00 = .command (.rnd 31) ∧ decode 0xE0000000 = .command .clrerr ∧
  decode 0xF0000000 = .command .srst

/-! ## Host transfer and control commands -/

/-- R51, R9: nibble i crosses a port at bits [63-4i : 60-4i]; `pack` and `unpack` are inverse; LD stores `unpack(din)` and RD drives
`pack(B)`. -/
def Obligations.BlocksCrossPortsNibbleZeroFirst : Prop :=
  (∀ (b : Block) (i : Nat) (h : i < 16), (pack b).extractLsb' (60 - 4 * i) 4 = b[i]) ∧
  (∀ (w : DataWord) (i : Nat) (h : i < 16), (unpack w)[i] = w.extractLsb' (60 - 4 * i) 4) ∧
  (∀ b : Block, unpack (pack b) = b) ∧ (∀ w : DataWord, pack (unpack w) = w) ∧
  (∀ s : State, exec (.ld .state) s = .next { s with state := unpack s.now.din }) ∧
  (∀ s : State, exec (.rd (.block .state)) s = .next { s with dout := pack s.state }) ∧
  unpack 0x0123456789ABCDEF = #v[0x0, 0x1, 0x2, 0x3, 0x4, 0x5, 0x6, 0x7, 0x8, 0x9, 0xA, 0xB, 0xC, 0xD, 0xE, 0xF]

/-- R170: NOP changes nothing, ERR included, and every other word with OP 0 is rejected with RSVD_NONZERO. -/
def Obligations.NopChangesNothing : Prop :=
  (∀ w : CmdWord, w.extractLsb' 28 4 = 0x0 →
    decode w = if w = 0x00000000 then .command .nop else .error .rsvdNonzero) ∧
  (∀ s : State, exec .nop s = .next s) ∧
  (∀ s : State, AcceptsCommand s .nop → cmdReady s = true ∧ step s = .next { s with inputs := s.inputs.tail })

/-- R171: LD puts `unpack(din)` into the one Block register its SEL names and changes nothing else; a rejected LD writes no
register. -/
def Obligations.LdLoadsOneRegister : Prop :=
  decode 0x10000000 = .command (.ld .state) ∧ decode 0x11000000 = .command (.ld .key0) ∧
  decode 0x12000000 = .command (.ld .key1) ∧ decode 0x13000000 = .command (.ld .tweak) ∧
  (∀ w : CmdWord, w.extractLsb' 28 4 = 0x1 →
    (w.extractLsb' 0 24 ≠ 0 → decode w = .error .rsvdNonzero) ∧
    (w.extractLsb' 0 24 = 0 → 3 < (w.extractLsb' 24 4).toNat → decode w = .error .illegalSel)) ∧
  (∀ s : State,
    exec (.ld .state) s = .next { s with state := unpack s.now.din } ∧
    exec (.ld .key0) s = .next { s with key0 := unpack s.now.din } ∧
    exec (.ld .key1) s = .next { s with key1 := unpack s.now.din } ∧
    exec (.ld .tweak) s = .next { s with tweak := unpack s.now.din }) ∧
  (∀ (s : State) (r : BlockReg), s.busy = true → ¬ AcceptsCommand s (.ld r)) ∧
  (∀ (s : State) (e : CmdError), s.now.cmd.extractLsb' 28 4 = 0x1 → Rejects s e →
    ∃ t, step s = .next t ∧ OnlyStatusChanged s t)

/-- R172 to R176: RD puts the register or view its SEL names into DOUT and changes nothing else; a rejected RD leaves DOUT. -/
def Obligations.RdCopiesIntoDout : Prop :=
  (∀ w : CmdWord, w.extractLsb' 28 4 = 0x2 →
    (w.extractLsb' 0 24 ≠ 0 → decode w = .error .rsvdNonzero) ∧
    (w.extractLsb' 0 24 = 0 → 12 < (w.extractLsb' 24 4).toNat → decode w = .error .illegalSel)) ∧
  (∀ (c : Config) (w : CmdWord), w.extractLsb' 28 4 = 0x2 → w.extractLsb' 0 24 = 0 → c.dtkPresent = false →
    8 ≤ (w.extractLsb' 24 4).toNat → (w.extractLsb' 24 4).toNat ≤ 11 → decodeIn c w = .error .illegalSel) ∧
  (∀ v : ReadSel, decode (0x20000000#32 ||| (v.sel.setWidth 32 <<< 24)) = .command (.rd v)) ∧
  (∀ s : State,
    exec (.rd (.block .state)) s = .next { s with dout := pack s.state } ∧
    exec (.rd (.block .key0)) s = .next { s with dout := pack s.key0 } ∧
    exec (.rd (.block .key1)) s = .next { s with dout := pack s.key1 } ∧
    exec (.rd (.block .tweak)) s = .next { s with dout := pack s.tweak } ∧
    (∀ j : Fin 4, exec (.rd (.tk j)) s = .next { s with dout := pack (tk Config.hardware s.keys j) }) ∧
    (∀ j : Fin 4, exec (.rd (.dtk j)) s = .next { s with dout := pack (dtk Config.hardware s.keys j) }) ∧
    (∃ d : DataWord, exec (.rd .status) s = .next { s with dout := d } ∧ d.getLsbD 0 = s.err ∧
      d.extractLsb' 4 4 = s.ecode ∧ d.extractLsb' 1 3 = 0 ∧ d.extractLsb' 8 56 = 0)) ∧
  (∀ s : State, s.state = unpack 0x8F97B5E12A635B1E →
    exec (.rd (.block .state)) s = .next { s with dout := 0x8F97B5E12A635B1E }) ∧
  (∀ s : State, s.key1 = unpack 0xFEDCBA9876543210 →
    exec (.rd (.block .key1)) s = .next { s with dout := 0xFEDCBA9876543210 }) ∧
  (∀ s : State, s.err = true → s.ecode = 1 → exec (.rd .status) s = .next { s with dout := 0x11 }) ∧
  (∀ s : State, s.keys = ⟨unpack 0x0123456789ABCDEF, unpack 0xFEDCBA9876543210, unpack 0x0F1E2D3C4B5A6978⟩ →
    exec (.rd (.tk 2)) s = .next { s with dout := 0x64AE31D62769FD16 } ∧
    exec (.rd (.dtk 0)) s = .next { s with dout := 0x685BCCCCC2F1A497 }) ∧
  (∀ (s : State) (e : CmdError), s.now.cmd.extractLsb' 28 4 = 0x2 → Rejects s e →
    ∃ t, step s = .next t ∧ t.dout = s.dout ∧ OnlyStatusChanged s t)

/-- R177: CLRERR clears ERR and ECODE and touches nothing else; with ERR and ECODE already 0 it changes nothing; a word with OP 0xE
and any other bit set is rejected, and then, if ERR was 1, ERR and ECODE stay. -/
def Obligations.ClrerrClearsStatusOnly : Prop :=
  (∀ w : CmdWord, w.extractLsb' 28 4 = 0xE →
    decode w = if w = 0xE0000000 then .command .clrerr else .error .rsvdNonzero) ∧
  (∀ s : State, exec .clrerr s = .next { s with err := false, ecode := 0 }) ∧
  (∀ s : State, StatusLegal s → s.err = false → exec .clrerr s = .next s) ∧
  (∀ (s : State) (e : CmdError), s.now.cmd.extractLsb' 28 4 = 0xE → s.err = true → Rejects s e →
    ∃ t, step s = .next t ∧ t.err = true ∧ t.ecode = s.ecode) ∧
  (∀ s : State, s.err = true → s.ecode = 1 → ∃ t u, exec .clrerr s = .next t ∧ statusWord t = 0 ∧
    exec (.rd .status) t = .next u ∧ u.dout = 0)

/-- R178: SRST takes every register to its reset value, the keys, DOUT and STATUS included; a word with OP 0xF and any other bit set
is rejected; while an ENC runs no SRST is accepted. -/
def Obligations.SrstResetsEveryRegister : Prop :=
  (∀ w : CmdWord, w.extractLsb' 28 4 = 0xF →
    decode w = if w = 0xF0000000 then .command .srst else .error .rsvdNonzero) ∧
  (∀ s : State, ∃ t, exec .srst s = .next t ∧ RegistersReset t ∧ t.inputs = s.inputs) ∧
  (∀ s : State, AcceptsCommand s .srst →
    step s = step (s.setInputs ({ PortIn.idle with rst := true } :: s.inputs.tail))) ∧
  (∀ s : State, s.busy = true → ¬ AcceptsCommand s .srst)

/-- R55: RD has no side effect on what it reads, STATUS included, and LD writes one register; each, issued twice, leaves what it
leaves once. -/
def Obligations.LdAndRdAreIdempotent : Prop :=
  (∀ (v : ReadSel) (s : State), ∃ t, exec (.rd v) s = .next t ∧ t = { s with dout := t.dout } ∧
    exec (.rd v) t = .next t) ∧
  (∀ (r : BlockReg) (s : State), ∃ t, exec (.ld r) s = .next t ∧
    (∀ q : BlockReg, q ≠ r → t.block q = s.block q) ∧
    t = { s with state := t.state, key0 := t.key0, key1 := t.key1, tweak := t.tweak } ∧
    exec (.ld r) t = .next t)

/-! ## Errors -/

/-- R202: the first error sets ERR and writes its code; a later one leaves both; and both stay until CLRERR, SRST or reset. -/
def Obligations.FirstErrorIsKept : Prop :=
  (∀ (s : State) (e : CmdError), Rejects s e → s.err = false →
    ∃ t, step s = .next t ∧ t.err = true ∧
      t.ecode = (match e with | .illegalOp => 1 | .rsvdNonzero => 2 | .illegalSel => 3 | .argRange => 4)) ∧
  (∀ (s : State) (e : CmdError), Rejects s e → s.err = true →
    ∃ t, step s = .next t ∧ t.err = true ∧ t.ecode = s.ecode) ∧
  (∀ s t : State, step s = .next t → s.err = true → ¬ ClearsStatus s → t.err = true ∧ t.ecode = s.ecode) ∧
  (∀ s : State, errPort s = s.err ∧ ((statusWord s).getLsbD 0 = s.err))

/-- R203: a rejected word changes nothing but STATUS, and takes one cycle. -/
def Obligations.RejectedWordChangesStatusOnly : Prop :=
  ∀ (s : State) (e : CmdError), Rejects s e →
    ∃ t, step s = .next t ∧ t.state = s.state ∧ t.key0 = s.key0 ∧ t.key1 = s.key1 ∧ t.tweak = s.tweak ∧
      t.dout = s.dout ∧ t.busy = s.busy ∧ t.rctr = s.rctr ∧ t.rlim = s.rlim ∧ t.inputs = s.inputs.tail ∧
      (t.now.rst = false → cmdReady t = true)

/-- R27: ERR is 1 exactly when some word has been rejected since STATUS was last cleared; it drives the `err` port; and with ERR 1 every
command does what it does with ERR 0, but for what STATUS itself shows. -/
def Obligations.ErrTellsWhetherAWordWasRejected : Prop :=
  (∀ (n : Nat) (s t : State), s.err = false → edges n s = .next t →
    (∀ (k : Nat) (u : State), k < n → edges k s = .next u → ¬ ClearsStatus u) →
    (t.err = true ↔ ∃ k u e, k < n ∧ edges k s = .next u ∧ Rejects u e)) ∧
  (∀ s : State, errPort s = s.err) ∧
  (∀ (i : Instr) (s t : State) (e : BitVec 4), exec i s = .next t →
    ∃ u, exec i { s with err := true, ecode := e } = .next u ∧ (i ≠ .rd .status → u.dout = t.dout) ∧
      u = { t with dout := u.dout, err := u.err, ecode := u.ecode })

/-- The model's own choice, log entry 5: a command whose operand is out of range, which no word decodes to, records the error its word is
rejected with and changes nothing else. -/
def Obligations.OutOfRangeOperandRecordsItsError : Prop :=
  ∀ (s : State) (r : Byte),
    (32 ≤ r.toNat → exec (.arc r) s = .next (recordError .argRange s) ∧
      exec (.rnd r) s = .next (recordError .argRange s)) ∧
    (32 < r.toNat → exec (.enc r) s = .next (recordError .argRange s)) ∧
    (s.err = false → recordError .argRange s = { s with err := true, ecode := 4 }) ∧
    (s.err = true → recordError .argRange s = s)

/-! ## The tweakey schedule and the round steps -/

/-- R106, R107: the nibbles of TK and DTK, for every configuration, and the worked examples at the default tables. -/
def Obligations.TweakeySchedule : Prop :=
  (∀ (c : Config) (k : Keys) (i : Nat) (h : i < 16),
    (tk c k 0)[i] = k.key0[i] ^^^ k.tweak[i] ∧ (tk c k 1)[i] = k.key1[i] ^^^ k.tweak[i] ∧
    (tk c k 2)[i] = k.key0[i] ^^^ k.tweak[c.permQ[i]] ∧ (tk c k 3)[i] = k.key1[i] ^^^ k.tweak[c.permQ[i]]) ∧
  (∀ (c : Config) (k : Keys) (j : Fin 4) (i : Nat) (h : i < 4),
    (dtk c k j)[i] = (tk c k j)[i] ^^^ (tk c k j)[i + 8] ^^^ (tk c k j)[i + 12] ∧
    (dtk c k j)[i + 4] = (tk c k j)[i + 4] ^^^ (tk c k j)[i + 12] ∧
    (dtk c k j)[i + 8] = (tk c k j)[i + 8] ∧ (dtk c k j)[i + 12] = (tk c k j)[i + 12]) ∧
  (∀ k : Keys, k = ⟨unpack 0x0123456789ABCDEF, unpack 0xFEDCBA9876543210, unpack 0x0F1E2D3C4B5A6978⟩ →
    pack (tk Config.hardware k 0) = 0x0E3D685BC2F1A497 ∧ pack (tk Config.hardware k 1) = 0xF1C297A43D0E5B68 ∧
    pack (tk Config.hardware k 2) = 0x64AE31D62769FD16 ∧ pack (tk Config.hardware k 3) = 0x9B51CE29D89602E9 ∧
    pack (dtk Config.hardware k 0) = 0x685BCCCCC2F1A497)

/-- R109, R257: after an LD of KEY0, KEY1 or TWEAK, an RD of a TK slot at the next edge sees the schedule of the new value. -/
def Obligations.ScheduleFollowsLoadsAtOnce : Prop :=
  ∀ (s : State) (d d' : DataWord) (j : Fin 4) (rest : List PortIn), s.busy = false →
    (∃ t, edges 2 (s.setInputs (present (encode (.ld .key0)) d :: present (encode (.rd (.tk j))) d' :: rest)) = .next t ∧
      t.dout = pack (tk Config.hardware ⟨unpack d, s.key1, s.tweak⟩ j)) ∧
    (∃ t, edges 2 (s.setInputs (present (encode (.ld .key1)) d :: present (encode (.rd (.tk j))) d' :: rest)) = .next t ∧
      t.dout = pack (tk Config.hardware ⟨s.key0, unpack d, s.tweak⟩ j)) ∧
    (∃ t, edges 2 (s.setInputs (present (encode (.ld .tweak)) d :: present (encode (.rd (.tk j))) d' :: rest)) = .next t ∧
      t.dout = pack (tk Config.hardware ⟨s.key0, s.key1, unpack d⟩ j))

/-- R121: MC mixes STATE and changes nothing else; every other word with OP 4 is rejected with RSVD_NONZERO. -/
def Obligations.McMixesState : Prop :=
  (∀ w : CmdWord, w.extractLsb' 28 4 = 0x4 →
    decode w = if w = 0x40000000 then .command .mc else .error .rsvdNonzero) ∧
  (∀ s : State, ∃ b : Block, exec .mc s = .next { s with state := b } ∧
    (∀ (i : Nat) (h : i < 4), b[i] = s.state[i] ^^^ s.state[i + 8] ^^^ s.state[i + 12] ∧
      b[i + 4] = s.state[i + 4] ^^^ s.state[i + 12] ∧
      b[i + 8] = s.state[i + 8] ∧ b[i + 12] = s.state[i + 12]) ∧
    exec .mc { s with state := b } = .next s) ∧
  (∀ s : State, (∀ (i : Nat) (h : i < 8), s.state[i + 8] = 0) → exec .mc s = .next s) ∧
  (∀ s : State, s.state = unpack 0x0123456789ABCDEF → exec .mc s = .next { s with state := unpack 0x4567888889ABCDEF }) ∧
  (∀ s : State, s.state = unpack 0x0000000000000001 → exec .mc s = .next { s with state := unpack 0x0001000100000001 })

/-- R122: `mix` is linear and an involution; column by column it is the matrix [[1,0,1,1],[0,1,0,1],[0,0,1,0],[0,0,0,1]]. -/
def Obligations.MixIsALinearInvolution : Prop :=
  (∀ a b : Block, mix (xorBlock a b) = xorBlock (mix a) (mix b)) ∧ mix zeroBlock = zeroBlock ∧
  (∀ b : Block, mix (mix b) = b) ∧
  (∀ (b : Block) (i : Nat) (h : i < 4),
    (mix b)[i] = b[i] ^^^ b[i + 8] ^^^ b[i + 12] ∧ (mix b)[i + 4] = b[i + 4] ^^^ b[i + 12] ∧
    (mix b)[i + 8] = b[i + 8] ∧ (mix b)[i + 12] = b[i + 12])

/-- R124: ARC r XORs the round constants of r into nibbles 4 and 5 of STATE and changes nothing else. -/
def Obligations.ArcInjectsRoundConstants : Prop :=
  (∀ w : CmdWord, w.extractLsb' 28 4 = 0x5 →
    decode w = if w &&& 0xFFFF00FF = 0x50000000 then
        (if (w.extractLsb' 8 8).toNat < 32 then .command (.arc (w.extractLsb' 8 8)) else .error .argRange)
      else .error .rsvdNonzero) ∧
  (∀ (r : Byte) (s : State), r.toNat < 32 → ∃ (x : Nibble) (y : BitVec 3) (b : Block),
    Config.hardware.rcA[r.toNat]? = some x ∧ Config.hardware.rcB[r.toNat]? = some y ∧
    exec (.arc r) s = .next { s with state := b } ∧
    b[4] = s.state[4] ^^^ x ∧ b[5] = s.state[5] ^^^ y.setWidth 4 ∧
    (∀ (i : Nat) (h : i < 16), i ≠ 4 → i ≠ 5 → b[i] = s.state[i]) ∧
    exec (.arc r) { s with state := b } = .next s) ∧
  (∀ (s : State) (e : CmdError), s.now.cmd.extractLsb' 28 4 = 0x5 → Rejects s e →
    ∃ t, step s = .next t ∧ t.state = s.state ∧ OnlyStatusChanged s t) ∧
  (∀ r : Nat, r + 15 < 32 → Config.hardware.rcA[r]? = Config.hardware.rcA[r + 15]?) ∧
  (∀ r : Nat, r + 7 < 32 → Config.hardware.rcB[r]? = Config.hardware.rcB[r + 7]?) ∧
  (∀ s : State, s.state = unpack 0x0123456789ABCDEF → exec (.arc 0) s = .next { s with state := unpack 0x0123546789ABCDEF }) ∧
  (∀ s : State, s.state = zeroBlock → exec (.arc 1) s = .next { s with state := unpack 0x0000840000000000 } ∧
    exec (.arc 31) s = .next { s with state := unpack 0x0000850000000000 })

/-- R108: ATK r XORs TK[r mod 4] into STATE and changes nothing else, for every r. -/
def Obligations.AtkInjectsTweakey : Prop :=
  (∀ w : CmdWord, w.extractLsb' 28 4 = 0x6 →
    decode w = if w &&& 0xFFFF00FF = 0x60000000 then .command (.atk (w.extractLsb' 8 8)) else .error .rsvdNonzero) ∧
  (∀ (r : Byte) (s : State), ∃ (j : Fin 4) (b : Block), j.val = r.toNat % 4 ∧
    exec (.atk r) s = .next { s with state := b } ∧
    (∀ (i : Nat) (h : i < 16), b[i] = s.state[i] ^^^ (tk Config.hardware s.keys j)[i]) ∧
    exec (.atk r) { s with state := b } = .next s) ∧
  (∀ s : State, s.key0 = zeroBlock → s.tweak = zeroBlock → exec (.atk 0) s = .next s) ∧
  (∀ s : State, s.state = s.key0 → exec (.atk 0) s = .next { s with state := s.tweak }) ∧
  (∀ s : State, s.state = unpack 0x0123456789ABCDEF →
    s.keys = ⟨unpack 0x0123456789ABCDEF, unpack 0xFEDCBA9876543210, unpack 0x0F1E2D3C4B5A6978⟩ →
    exec (.atk 0) s = .next { s with state := unpack 0x0F1E2D3C4B5A6978 } ∧
    exec (.atk 5) s = .next { s with state := unpack 0xF0E1D2C3B4A59687 })

/-- R125, R126: PN moves nibble i of STATE to position `PERM_P[i]` and changes nothing else. -/
def Obligations.PnMovesNibbles : Prop :=
  (∀ w : CmdWord, w.extractLsb' 28 4 = 0x7 →
    decode w = if w = 0x70000000 then .command .pn else .error .rsvdNonzero) ∧
  (∀ s : State, ∃ b : Block, exec .pn s = .next { s with state := b } ∧
    (∀ i : Fin 16, b[Config.hardware.permP[i]] = s.state[i]) ∧
    b.toList.Perm s.state.toList ∧ exec .pn { s with state := b } = .next s) ∧
  (∀ (c : Config) (b : Block), c.Wf → ∀ i : Fin 16, (pn c b)[c.permP[i]] = b[i]) ∧
  (∀ (b : Block) (i : Fin 16), (pn Config.hardware b)[i] = b[Config.hardware.permP[i]]) ∧
  (∀ (s : State) (x : Nibble), s.state = Vector.replicate 16 x → exec .pn s = .next s) ∧
  (∀ s : State, s.state = unpack 0x0123456789ABCDEF → exec .pn s = .next { s with state := unpack 0xFCDEA98B65471230 }) ∧
  (∀ s : State, s.state = unpack 0x8000000000000000 → exec .pn s = .next { s with state := unpack 0x0000000000000008 })

/-- R127, R128: SB replaces every nibble of STATE by its SBOX image and changes nothing else. -/
def Obligations.SbSubstitutesEveryNibble : Prop :=
  (∀ w : CmdWord, w.extractLsb' 28 4 = 0x8 →
    decode w = if w = 0x80000000 then .command .sb else .error .rsvdNonzero) ∧
  (∀ s : State, ∃ b : Block, exec .sb s = .next { s with state := b } ∧
    (∀ (i : Nat) (h : i < 16), Config.hardware.sbox[(s.state[i]).toNat]? = some b[i]) ∧
    (∀ (i : Nat) (h : i < 16), s.state[i] = 3 ∨ s.state[i] = 7 ∨ s.state[i] = 8 ∨ s.state[i] = 9 → b[i] = s.state[i]) ∧
    exec .sb { s with state := b } = .next s) ∧
  (∀ (c : Config) (b : Block) (i : Nat) (h : i < 16), c.sbox[(b[i]).toNat]? = some (sb c b)[i]) ∧
  (∀ s : State, s.state = zeroBlock → exec .sb s = .next { s with state := unpack 0xCCCCCCCCCCCCCCCC }) ∧
  (∀ s : State, s.state = unpack 0xFFFFFFFFFFFFFFFF → exec .sb s = .next { s with state := unpack 0x6666666666666666 }) ∧
  sb Config.hardware zeroBlock ≠ zeroBlock ∧
  (∀ s : State, s.state = unpack 0x0123456789ABCDEF → exec .sb s = .next { s with state := unpack 0xCAD3EBF789150246 })

/-- R129: each of MC, ARC, ATK, PN and SB is a bijection on STATE and writes nothing but STATE; only ATK reads the keys and the
tweak. -/
def Obligations.RoundStepsAreBijectionsOnState : Prop :=
  ∀ i : Instr, (i = .mc ∨ (∃ r : Byte, r.toNat < 32 ∧ i = .arc r) ∨ (∃ r : Byte, i = .atk r) ∨ i = .pn ∨ i = .sb) →
    ∃ f : Keys → Block → Block, (∀ k, Function.Bijective (f k)) ∧
      ((∀ r, i ≠ .atk r) → ∀ k k', f k = f k') ∧
      ∀ s : State, exec i s = .next { s with state := f s.keys s.state }

/-- R130, R131: RND r applies the five steps in order to STATE and changes nothing else, RCTR and BUSY included. -/
def Obligations.RndAppliesOneRound : Prop :=
  (∀ w : CmdWord, w.extractLsb' 28 4 = 0x9 →
    decode w = if w &&& 0xFFFF00FF = 0x90000000 then
        (if (w.extractLsb' 8 8).toNat < 32 then .command (.rnd (w.extractLsb' 8 8)) else .error .argRange)
      else .error .rsvdNonzero) ∧
  (∀ (c : Config) (k : Keys) (b : Block) (r : Nat),
    round c k b r = sb c (pn c (atk c k (arc c (mix b) r) r))) ∧
  (∀ (r : Byte) (s : State), r.toNat < 32 → exec (.rnd r) s = .next { s with
    state := sb Config.hardware (pn Config.hardware (atk Config.hardware s.keys
      (arc Config.hardware (mix s.state) r.toNat) r.toNat)) }) ∧
  (∀ (s : State) (e : CmdError), s.now.cmd.extractLsb' 28 4 = 0x9 → Rejects s e →
    ∃ t, step s = .next t ∧ t.state = s.state ∧ OnlyStatusChanged s t) ∧
  (∀ s : State, s.state = zeroBlock → s.keys = ⟨zeroBlock, zeroBlock, zeroBlock⟩ →
    exec (.rnd 0) s = .next { s with state := unpack 0xCCCCCCCCCAACCCCC }) ∧
  (∀ s : State, s.state = unpack 0x0123456789ABCDEF →
    s.keys = ⟨unpack 0x0123456789ABCDEF, unpack 0xFEDCBA9876543210, unpack 0x0F1E2D3C4B5A6978⟩ →
    mix s.state = unpack 0x4567888889ABCDEF ∧
    arc Config.hardware (unpack 0x4567888889ABCDEF) 0 = unpack 0x4567998889ABCDEF ∧
    atk Config.hardware s.keys (unpack 0x4567998889ABCDEF) 0 = unpack 0x4B5AF1D34B5A6978 ∧
    pn Config.hardware (unpack 0x4B5AF1D34B5A6978) = unpack 0x86975B4AD1F3B5A4 ∧
    sb Config.hardware (unpack 0x86975B4AD1F3B5A4) = unpack 0x8F97B5E12A635B1E ∧
    exec (.rnd 0) s = .next { s with state := unpack 0x8F97B5E12A635B1E })

/-- R132: the words of MC, ARC r, ATK r, PN and SB, accepted one after another, leave exactly what the word of RND r leaves, at five
edges instead of one. -/
def Obligations.FiveStepsEqualOneRound : Prop :=
  ∀ (s : State) (r : Byte) (d : DataWord) (rest : List PortIn), s.busy = false → r.toNat < 32 →
    ∃ t, edges 5 (s.setInputs (present (encode .mc) d :: present (encode (.arc r)) d :: present (encode (.atk r)) d ::
        present (encode .pn) d :: present (encode .sb) d :: rest)) = .next t ∧
      edges 1 (s.setInputs (present (encode (.rnd r)) d :: rest)) = .next t

/-! ## ENC -/

/-- From R151: the accepting edge of ENC R with R > 0 raises BUSY, clears RCTR and sets RLIM, and leaves STATE; each later edge applies
the round RCTR and counts up; BUSY is 1, and `cmd_ready` 0, for exactly R edges. The clause about one round edge ranges over every state
with BUSY 1: where RCTR is not below RLIM, which no run from reset reaches, the 8-bit count and its comparison are the model's reading
(log entry 8), and for RCTR of 32 or more the round uses the free constants of log entry 3. -/
def Obligations.EncRunsOneRoundPerEdge : Prop :=
  (∀ s : State, exec (.enc 0) s = .next s) ∧
  (∀ (n : Byte) (s : State), n ≠ 0 → n.toNat ≤ 32 →
    exec (.enc n) s = .next { s with busy := true, rctr := 0, rlim := n }) ∧
  (∀ s : State, s.now.rst = false → s.busy = true → step s = .next { s with
    state := round Config.hardware s.keys s.state s.rctr.toNat, rctr := s.rctr + 1,
    busy := if s.rctr + 1 = s.rlim then false else true, inputs := s.inputs.tail }) ∧
  (∀ s : State, s.now.rst = true → s.busy = true → ∃ t, step s = .next t ∧ RegistersReset t) ∧
  (∀ (s : State) (n : Byte) (k : Nat), AcceptsCommand s (.enc n) → n ≠ 0 → k ≤ n.toNat →
    (∀ x ∈ s.inputs.take (k + 1), x.rst = false) →
    ∃ t, edges (k + 1) s = .next t ∧ t.busy = decide (k < n.toNat) ∧ t.rctr.toNat = k ∧ k ≤ 32 ∧ t.rlim = n ∧
      (t.now.rst = false → cmdReady t = !decide (k < n.toNat)))

/-- R150, R152, R153, R156: R + 1 edges after ENC R was presented, with no reset on the way and whatever the host presents
meanwhile, STATE holds rounds 0 to R-1 applied to STATE as it was, RCTR = RLIM = R for R > 0 (both unchanged for R = 0), BUSY is 0, and
nothing else has changed. A rejected ENC changes STATUS only and does not raise BUSY. No command reads RCTR or RLIM. -/
def Obligations.EncCompletesAsRoundsZeroToR : Prop :=
  (∀ w : CmdWord, w.extractLsb' 28 4 = 0x3 →
    decode w = if w &&& 0xFFFFFF00 = 0x30000000 then
        (if (w.extractLsb' 0 8).toNat ≤ 32 then .command (.enc (w.extractLsb' 0 8)) else .error .argRange)
      else .error .rsvdNonzero) ∧
  (∀ (s : State) (n : Byte) (x : PortIn) (xs rest : List PortIn),
    s.busy = false → n.toNat ≤ 32 → s.inputs = x :: (xs ++ rest) → x.rst = false → x.cmdValid = true →
    x.cmd = 0x300000#24 ++ n → xs.length = n.toNat → (∀ y ∈ xs, y.rst = false) →
    edges (n.toNat + 1) s = .next { s with
      state := (List.range n.toNat).foldl (fun b r => round Config.hardware s.keys b r) s.state,
      rctr := if n = 0 then s.rctr else n, rlim := if n = 0 then s.rlim else n, inputs := rest }) ∧
  (∀ (s : State) (e : CmdError), s.now.cmd.extractLsb' 28 4 = 0x3 → Rejects s e →
    ∃ t, step s = .next t ∧ t.busy = false ∧ OnlyStatusChanged s t) ∧
  (∀ (i : Instr) (s t : State) (a b : Byte), exec i s = .next t →
    ∃ u, exec i { s with rctr := a, rlim := b } = .next u ∧ u = { t with rctr := u.rctr, rlim := u.rlim }) ∧
  (∀ (k : Keys) (b : Block), b = unpack 0x0123456789ABCDEF →
    k = ⟨unpack 0x0123456789ABCDEF, unpack 0xFEDCBA9876543210, unpack 0x0F1E2D3C4B5A6978⟩ →
    (List.range 1).foldl (fun b r => round Config.hardware k b r) b = unpack 0x8F97B5E12A635B1E ∧
    (List.range 4).foldl (fun b r => round Config.hardware k b r) b = unpack 0x771D2A5478B73A49)

/-- R157: RND 0, RND 1, …, RND R-1 leave in STATE what ENC R leaves; ENC a then ENC b applies rounds 0..a-1 and then 0..b-1, which is in
general not ENC (a+b). -/
def Obligations.EncEqualsRndsInOrderAndIsNotResumable : Prop :=
  (∀ (s : State) (n : Byte) (d : DataWord), s.busy = false → n.toNat ≤ 32 →
    ∃ t u, edges n.toNat (s.setInputs ((List.range n.toNat).map
        fun r => present (encode (.rnd (BitVec.ofNat 8 r))) d)) = .next t ∧
      edges (n.toNat + 1) (s.setInputs [present (encode (.enc n)) d]) = .next u ∧ t.state = u.state) ∧
  (∀ (s : State) (a b : Byte), s.busy = false → a.toNat ≤ 32 → b.toNat ≤ 32 →
    ∃ t, edges ((a.toNat + 1) + (b.toNat + 1))
        (s.setInputs (drive Config.hardware [(encode (.enc a), 0), (encode (.enc b), 0)])) = .next t ∧
      t.state = encrypt Config.hardware s.keys (encrypt Config.hardware s.keys s.state a.toNat) b.toNat) ∧
  (∀ (k : Keys) (b : Block) (a : Nat),
    encrypt Config.hardware k b (a + 1) = round Config.hardware k (encrypt Config.hardware k b a) a) ∧
  (∀ k : Keys, k = ⟨zeroBlock, zeroBlock, zeroBlock⟩ →
    pack (encrypt Config.hardware k (encrypt Config.hardware k zeroBlock 1) 1) = 0x00001100CAAC1100 ∧
    pack (encrypt Config.hardware k zeroBlock 2) = 0x00001100CE8C1100)

/-- R154, R130: in every legal configuration, round r is `sb(pn(·))` of the Block that XORs TK[r mod 4] into the mixed Block, with `RC_A[r]`
also in nibble 4 and `RC_B[r]` in nibble 5. -/
def Obligations.RoundUsesItsSlotAndConstants : Prop :=
  ∀ (c : Config) (k : Keys) (b : Block) (r : Nat), c.Wf → r < c.maxRounds →
    ∃ (j : Fin 4) (x : Nibble) (y : BitVec 3) (m : Block), j.val = r % 4 ∧ c.rcA[r]? = some x ∧ c.rcB[r]? = some y ∧
      (∀ (i : Nat) (h : i < 16), m[i] = (mix b)[i] ^^^ (if i = 4 then x else if i = 5 then y.setWidth 4 else 0) ^^^
        (tk c k j)[i]) ∧
      (∀ i : Fin 16, c.sbox[(m[i]).toNat]? = some (round c k b r)[c.permP[i]])

/-- R155: for fixed keys, tweak and R, ENC is a bijection on STATE in every legal configuration whose SBOX is one, the default tables
among them; so different plaintexts give different ciphertexts. -/
def Obligations.EncryptionIsABijection : Prop :=
  (∀ c : Config, c.Wf → (∀ i j : Fin 16, c.sbox[i] = c.sbox[j] → i = j) →
    ∀ (k : Keys) (n : Nat), Function.Bijective fun b => encrypt c k b n) ∧
  Config.hardware.Wf ∧ (∀ i j : Fin 16, Config.hardware.sbox[i] = Config.hardware.sbox[j] → i = j)

/-! ## Timing and the assembler -/

/-- R260: R + 1 cycles and R busy cycles for ENC R, one cycle and none for every other command and every rejected word; the core is busy
after exactly that many edges. -/
def Obligations.CycleCounts : Prop :=
  (∀ n : Byte, n.toNat ≤ 32 → busyCycles Config.hardware (encode (.enc n)) = n.toNat) ∧
  (∀ w : CmdWord, (∀ n, decode w ≠ .command (.enc n)) → busyCycles Config.hardware w = 0) ∧
  (∀ w : CmdWord, cycles Config.hardware w = busyCycles Config.hardware w + 1) ∧
  (∀ (s : State) (w : CmdWord) (k : Nat), accepts s = true → s.now.cmd = w → k < cycles Config.hardware w →
    (∀ x ∈ s.inputs.take (k + 1), x.rst = false) →
    ∃ t, edges (k + 1) s = .next t ∧ busyPort t = decide (k + 1 < cycles Config.hardware w))

/-- R88: the assembler emits a command's word, with its value on `din` for LD and 0 otherwise, only when the core accepts that word as that
command, and refuses it otherwise; `.WORD` is emitted as it is. -/
def Obligations.AssemblerEmitsAcceptedWords : Prop :=
  (∀ (c : Config) (i : Instr) (v d : DataWord) (w : CmdWord), assembleLine c (.command i v) = some (w, d) →
    decodeIn c w = .command i ∧ ((∃ r, i = .ld r) → d = v) ∧ ((∀ r, i ≠ .ld r) → d = 0)) ∧
  (∀ (c : Config) (i : Instr) (v : DataWord), assembleLine c (.command i v) = none →
    ∀ w : CmdWord, decodeIn c w ≠ .command i) ∧
  (∀ (c : Config) (w : CmdWord), assembleLine c (.word w) = some (w, 0))

/-- R89, R150, R171, R172: the expansions of SETKT and ENCRYPT, driven by a host that waits for ENC, leave the ciphertext of the plaintext
in DOUT R + 6 edges later, from any state in which no ENC runs, and STATUS as it was. -/
def Obligations.SetktThenEncryptReadsTheCiphertext : Prop :=
  ∀ (s : State) (k0 k1 t p : DataWord) (n : Byte) (rest : List PortIn), s.busy = false → n.toNat ≤ 32 →
    ∃ l u, assemble Config.hardware (expand (.setkt k0 k1 t) ++ expand (.encrypt p n)) = some l ∧
      edges (n.toNat + 6) (s.setInputs (drive Config.hardware l ++ rest)) = .next u ∧
      u.dout = pack (encrypt Config.hardware ⟨unpack k0, unpack k1, unpack t⟩ (unpack p) n.toNat) ∧
      u.err = s.err ∧ u.ecode = s.ecode ∧ u.busy = false ∧ u.inputs = rest
end

