-- ==== Sys2Proof/Laws/Blocks.lean ====
section
/-! SUPPORT. What the Block operations give at one nibble. -/

namespace Sys2Proof.Machine

@[simp] theorem xorBlock_get (a b : Block) (i : Nat) (h : i < 16) : (xorBlock a b)[i] = a[i] ^^^ b[i] := by
  simp [xorBlock]

@[simp] theorem gather_get (p : Vector (Fin 16) 16) (b : Block) (i : Nat) (h : i < 16) :
    (gather p b)[i] = b[p[i]] := by
  simp [gather]

@[simp] theorem unpack_get (w : DataWord) (i : Nat) (h : i < 16) :
    (unpack w)[i] = w.extractLsb' (60 - 4 * i) 4 := by
  simp [unpack]

/-- The writes of `scatter` over a list of positions without repeats, one nibble at a time: a position the list names
lands where the table sends it, and the places no listed position is sent to keep what they held. -/
theorem scatter_fold (p : Vector (Fin 16) 16) (b : Block) (hp : ∀ i j : Fin 16, p[i] = p[j] → i = j) :
    ∀ (l : List (Fin 16)) (acc : Block), l.Nodup →
      (∀ i ∈ l, (l.foldl (fun acc i => acc.set (p[i] : Fin 16) b[i]) acc)[(p[i] : Fin 16)] = b[i]) ∧
      (∀ k : Fin 16, (∀ i ∈ l, p[i] ≠ k) →
        (l.foldl (fun acc i => acc.set (p[i] : Fin 16) b[i]) acc)[k] = acc[k])
  | [], acc, _ => by simp
  | x :: l, acc, hn => by
    obtain ⟨hx, hl⟩ := List.nodup_cons.1 hn
    have ih := scatter_fold p b hp l (acc.set (p[x] : Fin 16) b[x]) hl
    refine ⟨fun i hi => ?_, fun k hk => ?_⟩
    · rcases List.mem_cons.1 hi with rfl | hi
      · have h := ih.2 p[i] fun j hj e => hx (hp _ _ e ▸ hj)
        simpa using h
      · exact ih.1 i hi
    · have h := ih.2 k fun i hi => hk i (List.mem_cons_of_mem _ hi)
      have hne : ¬ ((p[x] : Fin 16) : Nat) = k := fun e => hk x List.mem_cons_self (Fin.ext e)
      have hset : (acc.set (p[x] : Fin 16) b[x])[k] = acc[k] := Vector.getElem_set_ne _ _ hne
      exact h.trans hset

/-- `B'[P[i]] = B[i]` (R125), for a table P without repeats. -/
theorem scatter_get (p : Vector (Fin 16) 16) (b : Block) (hp : ∀ i j : Fin 16, p[i] = p[j] → i = j) (i : Fin 16) :
    (scatter p b)[(p[i] : Fin 16)] = b[i] :=
  (scatter_fold p b hp (List.finRange 16) b (List.nodup_finRange 16)).1 i (List.mem_finRange i)

end Sys2Proof.Machine
end

