-- ==== Sys2Proof/Laws/Decode.lean ====
section
/-! SUPPORT. Lemmas of the decoder and the encoder: the fields of a word put together from fields, a word put together from
its own fields, the maps of operations and select codes, and decode by cases. -/

namespace Sys2Proof

/-- A word put together from its five fields (R71). -/
def wordOf (op sel : BitVec 4) (rsv ridx rcnt : Byte) : CmdWord := op ++ sel ++ rsv ++ ridx ++ rcnt

section
variable (op sel : BitVec 4) (rsv ridx rcnt : Byte)
open BitVec

@[simp] theorem opField_wordOf : opField (wordOf op sel rsv ridx rcnt) = op :=
  (extractLsb'_append_eq_of_le (by decide)).trans <| (extractLsb'_append_eq_of_le (by decide)).trans <|
    (extractLsb'_append_eq_of_le (by decide)).trans extractLsb'_append_eq_left

@[simp] theorem selField_wordOf : selField (wordOf op sel rsv ridx rcnt) = sel :=
  (extractLsb'_append_eq_of_le (by decide)).trans <| (extractLsb'_append_eq_of_le (by decide)).trans <|
    (extractLsb'_append_eq_of_le (by decide)).trans extractLsb'_append_eq_right

@[simp] theorem rsvField_wordOf : rsvField (wordOf op sel rsv ridx rcnt) = rsv :=
  (extractLsb'_append_eq_of_le (by decide)).trans <| (extractLsb'_append_eq_of_le (by decide)).trans
    extractLsb'_append_eq_right

@[simp] theorem ridxField_wordOf : ridxField (wordOf op sel rsv ridx rcnt) = ridx :=
  (extractLsb'_append_eq_of_le (by decide)).trans extractLsb'_append_eq_right

@[simp] theorem rcntField_wordOf : rcntField (wordOf op sel rsv ridx rcnt) = rcnt :=
  extractLsb'_append_eq_right

end

/-- A word is put together from its own fields: format C has no other bit (R71). -/
theorem wordOf_fields (w : CmdWord) :
    wordOf (opField w) (selField w) (rsvField w) (ridxField w) (rcntField w) = w := by
  have h1 : (w.extractLsb' 28 4 ++ w.extractLsb' 24 4 : BitVec 8) = w.extractLsb' 24 8 :=
    BitVec.extractLsb'_append_extractLsb'_eq_extractLsb' rfl
  have h2 : (w.extractLsb' 24 8 ++ w.extractLsb' 16 8 : BitVec 16) = w.extractLsb' 16 16 :=
    BitVec.extractLsb'_append_extractLsb'_eq_extractLsb' rfl
  have h3 : (w.extractLsb' 16 16 ++ w.extractLsb' 8 8 : BitVec 24) = w.extractLsb' 8 24 :=
    BitVec.extractLsb'_append_extractLsb'_eq_extractLsb' rfl
  have h4 : (w.extractLsb' 8 24 ++ w.extractLsb' 0 8 : BitVec 32) = w.extractLsb' 0 32 :=
    BitVec.extractLsb'_append_extractLsb'_eq_extractLsb' rfl
  have h : wordOf (opField w) (selField w) (rsvField w) (ridxField w) (rcntField w)
      = ((((w.extractLsb' 28 4 ++ w.extractLsb' 24 4 : BitVec 8) ++ w.extractLsb' 16 8 : BitVec 16)
          ++ w.extractLsb' 8 8 : BitVec 24) ++ w.extractLsb' 0 8 : BitVec 32) := rfl
  rw [h, h1, h2, h3, h4]
  exact BitVec.extractLsb'_eq_self

/-- Words with equal fields are equal. -/
theorem eq_of_fields {v w : CmdWord} (h₁ : opField v = opField w) (h₂ : selField v = selField w)
    (h₃ : rsvField v = rsvField w) (h₄ : ridxField v = ridxField w) (h₅ : rcntField v = rcntField w) : v = w := by
  rw [← wordOf_fields v, ← wordOf_fields w, h₁, h₂, h₃, h₄, h₅]

/-- A mask of fields acts field by field (R79). -/
theorem wordOf_and (o s : BitVec 4) (v r n : Byte) (o' s' : BitVec 4) (v' r' n' : Byte) :
    wordOf o s v r n &&& wordOf o' s' v' r' n' = wordOf (o &&& o') (s &&& s') (v &&& v') (r &&& r') (n &&& n') :=
  (BitVec.and_append (x₁ := o ++ s ++ v ++ r)).trans (by
    rw [BitVec.and_append, BitVec.and_append, BitVec.and_append]; rfl)

theorem wordOf_inj {o s : BitVec 4} {v r n : Byte} {o' s' : BitVec 4} {v' r' n' : Byte} :
    wordOf o s v r n = wordOf o' s' v' r' n' ↔ o = o' ∧ s = s' ∧ v = v' ∧ r = r' ∧ n = n' := by
  refine ⟨fun h => ⟨?_, ?_, ?_, ?_, ?_⟩, by rintro ⟨rfl, rfl, rfl, rfl, rfl⟩; rfl⟩
  · simpa using congrArg opField h
  · simpa using congrArg selField h
  · simpa using congrArg rsvField h
  · simpa using congrArg ridxField h
  · simpa using congrArg rcntField h

theorem encode_eq_wordOf (i : Instr) : encode i = wordOf i.op.field i.selBits 0 i.ridxBits i.rcntBits := rfl

@[simp] theorem opField_encode (i : Instr) : opField (encode i) = i.op.field := by simp [encode_eq_wordOf]

@[simp] theorem selField_encode (i : Instr) : selField (encode i) = i.selBits := by simp [encode_eq_wordOf]

@[simp] theorem rsvField_encode (i : Instr) : rsvField (encode i) = 0 := by simp [encode_eq_wordOf]

@[simp] theorem ridxField_encode (i : Instr) : ridxField (encode i) = i.ridxBits := by simp [encode_eq_wordOf]

@[simp] theorem rcntField_encode (i : Instr) : rcntField (encode i) = i.rcntBits := by simp [encode_eq_wordOf]

@[simp] theorem Op.ofField_field (op : Op) : Op.ofField op.field = some op := by cases op <;> rfl

/-- The opcode map reads an operation from its own OP value only (R78). -/
theorem Op.ofField_eq_some (x : BitVec 4) (op : Op) : Op.ofField x = some op ↔ x = op.field := by
  revert x; cases op <;> decide

@[simp] theorem BlockReg.ofSel_sel (r : BlockReg) : BlockReg.ofSel r.sel = some r := by cases r <;> rfl

theorem BlockReg.ofSel_eq_some (x : BitVec 4) (r : BlockReg) : BlockReg.ofSel x = some r ↔ x = r.sel := by
  revert x; cases r <;> decide

@[simp] theorem ReadSel.ofSel_sel (v : ReadSel) : ReadSel.ofSel v.sel = some v := by
  cases v with
  | block r => cases r <;> rfl
  | tk j => revert j; decide
  | dtk j => revert j; decide
  | status => rfl

theorem ReadSel.ofSel_eq_some (x : BitVec 4) (v : ReadSel) : ReadSel.ofSel x = some v ↔ x = v.sel := by
  cases v with
  | block r => revert x; cases r <;> decide
  | tk j => revert x j; decide
  | dtk j => revert x j; decide
  | status => revert x; decide

/-- A reserved OP value is rejected with ILLEGAL_OP, whatever the other bits (R81). -/
theorem decodeIn_reserved (c : Config) (w : CmdWord) (h : Op.ofField (opField w) = none) :
    decodeIn c w = .error .illegalOp := by
  simp [decodeIn, h]

/-- A defined OP with RSV ≠ 0 is rejected with RSVD_NONZERO (R74). -/
theorem decodeIn_rsv (c : Config) (w : CmdWord) {op : Op} (h : Op.ofField (opField w) = some op) (hr : rsvField w ≠ 0) :
    decodeIn c w = .error .rsvdNonzero := by
  simp only [decodeIn, h, if_neg hr]

/-- A defined OP with RSV = 0 is decoded from its operands. -/
theorem decodeIn_defined (c : Config) (w : CmdWord) {op : Op} (h : Op.ofField (opField w) = some op)
    (hr : rsvField w = 0) :
    decodeIn c w = decodeOperands c op (selField w) (ridxField w) (rcntField w) := by
  simp only [decodeIn, h, if_pos hr]

theorem unlessNonzero_command {b : Bool} {d : Decoded} {i : Instr} (h : unlessNonzero b d = .command i) :
    b = true ∧ d = .command i := by
  cases b
  · simp [unlessNonzero] at h
  · exact ⟨rfl, h⟩

/-- What the operand checks let through is in range (R80). -/
theorem decodeOperands_wf {c : Config} {op : Op} {sel : BitVec 4} {ridx rcnt : Byte} {i : Instr}
    (h : decodeOperands c op sel ridx rcnt = .command i) : i.wf c = true := by
  cases op <;> obtain ⟨-, h⟩ := unlessNonzero_command h
  case ld => split at h <;> cases h; rfl
  case rd => split at h <;> [split at h; skip] <;> cases h; assumption
  case enc => split at h <;> cases h; simpa [Instr.wf]
  case arc => split at h <;> cases h; simpa [Instr.wf]
  case rnd => split at h <;> cases h; simpa [Instr.wf]
  all_goals cases h; rfl

/-- What decode lets through is in range (R80). -/
theorem decodeIn_wf {c : Config} {w : CmdWord} {i : Instr} (h : decodeIn c w = .command i) : i.wf c = true := by
  simp only [decodeIn] at h
  split at h
  · cases h
  · split at h
    · exact decodeOperands_wf h
    · cases h

end Sys2Proof
end

