-- ==== Sys2Proof/Laws/State.lean ====
section
/-! SUPPORT. One lemma for each field of each named update of State, so that no proof unfolds a record update. -/

namespace Sys2Proof.Machine

variable (s : State)

@[simp] theorem setState_state (b : Block) : (s.setState b).state = b := rfl
@[simp] theorem setState_key0 (b : Block) : (s.setState b).key0 = s.key0 := rfl
@[simp] theorem setState_key1 (b : Block) : (s.setState b).key1 = s.key1 := rfl
@[simp] theorem setState_tweak (b : Block) : (s.setState b).tweak = s.tweak := rfl
@[simp] theorem setState_dout (b : Block) : (s.setState b).dout = s.dout := rfl
@[simp] theorem setState_err (b : Block) : (s.setState b).err = s.err := rfl
@[simp] theorem setState_ecode (b : Block) : (s.setState b).ecode = s.ecode := rfl
@[simp] theorem setState_busy (b : Block) : (s.setState b).busy = s.busy := rfl
@[simp] theorem setState_rctr (b : Block) : (s.setState b).rctr = s.rctr := rfl
@[simp] theorem setState_rlim (b : Block) : (s.setState b).rlim = s.rlim := rfl
@[simp] theorem setState_inputs (b : Block) : (s.setState b).inputs = s.inputs := rfl

@[simp] theorem setDout_state (w : DataWord) : (s.setDout w).state = s.state := rfl
@[simp] theorem setDout_key0 (w : DataWord) : (s.setDout w).key0 = s.key0 := rfl
@[simp] theorem setDout_key1 (w : DataWord) : (s.setDout w).key1 = s.key1 := rfl
@[simp] theorem setDout_tweak (w : DataWord) : (s.setDout w).tweak = s.tweak := rfl
@[simp] theorem setDout_dout (w : DataWord) : (s.setDout w).dout = w := rfl
@[simp] theorem setDout_err (w : DataWord) : (s.setDout w).err = s.err := rfl
@[simp] theorem setDout_ecode (w : DataWord) : (s.setDout w).ecode = s.ecode := rfl
@[simp] theorem setDout_busy (w : DataWord) : (s.setDout w).busy = s.busy := rfl
@[simp] theorem setDout_rctr (w : DataWord) : (s.setDout w).rctr = s.rctr := rfl
@[simp] theorem setDout_rlim (w : DataWord) : (s.setDout w).rlim = s.rlim := rfl
@[simp] theorem setDout_inputs (w : DataWord) : (s.setDout w).inputs = s.inputs := rfl

@[simp] theorem setStatus_state (e : Bool) (c : BitVec 4) : (s.setStatus e c).state = s.state := rfl
@[simp] theorem setStatus_key0 (e : Bool) (c : BitVec 4) : (s.setStatus e c).key0 = s.key0 := rfl
@[simp] theorem setStatus_key1 (e : Bool) (c : BitVec 4) : (s.setStatus e c).key1 = s.key1 := rfl
@[simp] theorem setStatus_tweak (e : Bool) (c : BitVec 4) : (s.setStatus e c).tweak = s.tweak := rfl
@[simp] theorem setStatus_dout (e : Bool) (c : BitVec 4) : (s.setStatus e c).dout = s.dout := rfl
@[simp] theorem setStatus_err (e : Bool) (c : BitVec 4) : (s.setStatus e c).err = e := rfl
@[simp] theorem setStatus_ecode (e : Bool) (c : BitVec 4) : (s.setStatus e c).ecode = c := rfl
@[simp] theorem setStatus_busy (e : Bool) (c : BitVec 4) : (s.setStatus e c).busy = s.busy := rfl
@[simp] theorem setStatus_rctr (e : Bool) (c : BitVec 4) : (s.setStatus e c).rctr = s.rctr := rfl
@[simp] theorem setStatus_rlim (e : Bool) (c : BitVec 4) : (s.setStatus e c).rlim = s.rlim := rfl
@[simp] theorem setStatus_inputs (e : Bool) (c : BitVec 4) : (s.setStatus e c).inputs = s.inputs := rfl

@[simp] theorem setRun_state (b : Bool) (r l : Byte) : (s.setRun b r l).state = s.state := rfl
@[simp] theorem setRun_key0 (b : Bool) (r l : Byte) : (s.setRun b r l).key0 = s.key0 := rfl
@[simp] theorem setRun_key1 (b : Bool) (r l : Byte) : (s.setRun b r l).key1 = s.key1 := rfl
@[simp] theorem setRun_tweak (b : Bool) (r l : Byte) : (s.setRun b r l).tweak = s.tweak := rfl
@[simp] theorem setRun_dout (b : Bool) (r l : Byte) : (s.setRun b r l).dout = s.dout := rfl
@[simp] theorem setRun_err (b : Bool) (r l : Byte) : (s.setRun b r l).err = s.err := rfl
@[simp] theorem setRun_ecode (b : Bool) (r l : Byte) : (s.setRun b r l).ecode = s.ecode := rfl
@[simp] theorem setRun_busy (b : Bool) (r l : Byte) : (s.setRun b r l).busy = b := rfl
@[simp] theorem setRun_rctr (b : Bool) (r l : Byte) : (s.setRun b r l).rctr = r := rfl
@[simp] theorem setRun_rlim (b : Bool) (r l : Byte) : (s.setRun b r l).rlim = l := rfl
@[simp] theorem setRun_inputs (b : Bool) (r l : Byte) : (s.setRun b r l).inputs = s.inputs := rfl

@[simp] theorem setInputs_state (l : List PortIn) : (s.setInputs l).state = s.state := rfl
@[simp] theorem setInputs_key0 (l : List PortIn) : (s.setInputs l).key0 = s.key0 := rfl
@[simp] theorem setInputs_key1 (l : List PortIn) : (s.setInputs l).key1 = s.key1 := rfl
@[simp] theorem setInputs_tweak (l : List PortIn) : (s.setInputs l).tweak = s.tweak := rfl
@[simp] theorem setInputs_dout (l : List PortIn) : (s.setInputs l).dout = s.dout := rfl
@[simp] theorem setInputs_err (l : List PortIn) : (s.setInputs l).err = s.err := rfl
@[simp] theorem setInputs_ecode (l : List PortIn) : (s.setInputs l).ecode = s.ecode := rfl
@[simp] theorem setInputs_busy (l : List PortIn) : (s.setInputs l).busy = s.busy := rfl
@[simp] theorem setInputs_rctr (l : List PortIn) : (s.setInputs l).rctr = s.rctr := rfl
@[simp] theorem setInputs_rlim (l : List PortIn) : (s.setInputs l).rlim = s.rlim := rfl
@[simp] theorem setInputs_inputs (l : List PortIn) : (s.setInputs l).inputs = l := rfl

@[simp] theorem setBlock_dout (r : BlockReg) (b : Block) : (s.setBlock r b).dout = s.dout := by cases r <;> rfl
@[simp] theorem setBlock_err (r : BlockReg) (b : Block) : (s.setBlock r b).err = s.err := by cases r <;> rfl
@[simp] theorem setBlock_ecode (r : BlockReg) (b : Block) : (s.setBlock r b).ecode = s.ecode := by cases r <;> rfl
@[simp] theorem setBlock_busy (r : BlockReg) (b : Block) : (s.setBlock r b).busy = s.busy := by cases r <;> rfl
@[simp] theorem setBlock_rctr (r : BlockReg) (b : Block) : (s.setBlock r b).rctr = s.rctr := by cases r <;> rfl
@[simp] theorem setBlock_rlim (r : BlockReg) (b : Block) : (s.setBlock r b).rlim = s.rlim := by cases r <;> rfl
@[simp] theorem setBlock_inputs (r : BlockReg) (b : Block) : (s.setBlock r b).inputs = s.inputs := by cases r <;> rfl
@[simp] theorem setBlock_state_reg (b : Block) : s.setBlock .state b = { s with state := b } := rfl
@[simp] theorem block_state : s.block .state = s.state := rfl
@[simp] theorem setBlock_key0_reg (b : Block) : s.setBlock .key0 b = { s with key0 := b } := rfl
@[simp] theorem block_key0 : s.block .key0 = s.key0 := rfl
@[simp] theorem setBlock_key1_reg (b : Block) : s.setBlock .key1 b = { s with key1 := b } := rfl
@[simp] theorem block_key1 : s.block .key1 = s.key1 := rfl
@[simp] theorem setBlock_tweak_reg (b : Block) : s.setBlock .tweak b = { s with tweak := b } := rfl
@[simp] theorem block_tweak : s.block .tweak = s.tweak := rfl

/-- A Block register reads as it was written. -/
theorem block_setBlock_same (r : BlockReg) (b : Block) : (s.setBlock r b).block r = b := by cases r <;> rfl

/-- A write of one Block register leaves every other alone (R55). -/
theorem block_setBlock_other {r q : BlockReg} (h : q ≠ r) (b : Block) : (s.setBlock r b).block q = s.block q := by
  cases r <;> cases q <;> first | rfl | exact absurd rfl h

/-- Writing one Block register twice with the same value is writing it once (R55). -/
theorem setBlock_setBlock (r : BlockReg) (b : Block) : (s.setBlock r b).setBlock r b = s.setBlock r b := by
  cases r <;> rfl

@[simp] theorem resetCore_state : (resetCore s).state = State.reset.state := rfl
@[simp] theorem resetCore_key0 : (resetCore s).key0 = State.reset.key0 := rfl
@[simp] theorem resetCore_key1 : (resetCore s).key1 = State.reset.key1 := rfl
@[simp] theorem resetCore_tweak : (resetCore s).tweak = State.reset.tweak := rfl
@[simp] theorem resetCore_dout : (resetCore s).dout = State.reset.dout := rfl
@[simp] theorem resetCore_err : (resetCore s).err = State.reset.err := rfl
@[simp] theorem resetCore_ecode : (resetCore s).ecode = State.reset.ecode := rfl
@[simp] theorem resetCore_busy : (resetCore s).busy = State.reset.busy := rfl
@[simp] theorem resetCore_rctr : (resetCore s).rctr = State.reset.rctr := rfl
@[simp] theorem resetCore_rlim : (resetCore s).rlim = State.reset.rlim := rfl
@[simp] theorem resetCore_inputs : (resetCore s).inputs = s.inputs := rfl

@[simp] theorem reset_state : State.reset.state = zeroBlock := rfl
@[simp] theorem reset_key0 : State.reset.key0 = zeroBlock := rfl
@[simp] theorem reset_key1 : State.reset.key1 = zeroBlock := rfl
@[simp] theorem reset_tweak : State.reset.tweak = zeroBlock := rfl
@[simp] theorem reset_dout : State.reset.dout = 0 := rfl
@[simp] theorem reset_err : State.reset.err = false := rfl
@[simp] theorem reset_ecode : State.reset.ecode = 0 := rfl
@[simp] theorem reset_busy : State.reset.busy = false := rfl
@[simp] theorem reset_rctr : State.reset.rctr = 0 := rfl
@[simp] theorem reset_rlim : State.reset.rlim = 0 := rfl
@[simp] theorem reset_inputs : State.reset.inputs = [] := rfl

@[simp] theorem setState_now (b : Block) : (s.setState b).now = s.now := rfl
@[simp] theorem setState_keys (b : Block) : (s.setState b).keys = s.keys := rfl
@[simp] theorem setDout_now (w : DataWord) : (s.setDout w).now = s.now := rfl
@[simp] theorem setDout_keys (w : DataWord) : (s.setDout w).keys = s.keys := rfl
@[simp] theorem setStatus_now (e : Bool) (c : BitVec 4) : (s.setStatus e c).now = s.now := rfl
@[simp] theorem setStatus_keys (e : Bool) (c : BitVec 4) : (s.setStatus e c).keys = s.keys := rfl
@[simp] theorem setRun_now (b : Bool) (r l : Byte) : (s.setRun b r l).now = s.now := rfl
@[simp] theorem setRun_keys (b : Bool) (r l : Byte) : (s.setRun b r l).keys = s.keys := rfl
@[simp] theorem setInputs_keys (l : List PortIn) : (s.setInputs l).keys = s.keys := rfl
@[simp] theorem setBlock_now (r : BlockReg) (b : Block) : (s.setBlock r b).now = s.now := by cases r <;> rfl
@[simp] theorem resetCore_now : (resetCore s).now = s.now := rfl

/-! The port values ahead stand apart from the registers. -/

theorem setInputs_self : s.setInputs s.inputs = s := rfl

theorem setState_setInputs (b : Block) (l : List PortIn) : (s.setInputs l).setState b = (s.setState b).setInputs l := rfl

theorem setDout_setInputs (w : DataWord) (l : List PortIn) : (s.setInputs l).setDout w = (s.setDout w).setInputs l := rfl

theorem setBlock_setInputs (r : BlockReg) (b : Block) (l : List PortIn) :
    (s.setInputs l).setBlock r b = (s.setBlock r b).setInputs l := by cases r <;> rfl

theorem readSel_setInputs (c : Config) (v : ReadSel) (l : List PortIn) : readSel c v (s.setInputs l) = readSel c v s := by
  cases v with
  | block r => cases r <;> rfl
  | tk j => rfl
  | dtk j => rfl
  | status => rfl

end Sys2Proof.Machine
end

