-- ==== Sys2Proof/Laws/Ops.lean ====
section
/-! SUPPORT. Everything each shared operation can do, once. -/

namespace Sys2Proof.Machine

/-- The first error is recorded (R202). -/
theorem recordError_first (e : CmdError) (s : State) (h : s.err = false) :
    recordError e s = s.setStatus true (errorCode e) := by
  simp [recordError, h]

/-- A later error changes nothing (R202, R206). -/
theorem recordError_later (e : CmdError) (s : State) (h : s.err = true) : recordError e s = s := by
  simp [recordError, h]

/-- Recording an error is a write of STATUS, whichever case holds (R203). -/
theorem recordError_status (e : CmdError) (s : State) : ∃ er ec, recordError e s = s.setStatus er ec := by
  cases h : s.err
  · exact ⟨_, _, recordError_first e s h⟩
  · exact ⟨s.err, s.ecode, recordError_later e s h⟩

@[simp] theorem recordError_err (e : CmdError) (s : State) : (recordError e s).err = true := by
  cases h : s.err
  · simp [recordError_first e s h]
  · simp [recordError_later e s h, h]

@[simp] theorem recordError_inputs (e : CmdError) (s : State) : (recordError e s).inputs = s.inputs := by
  obtain ⟨er, ec, h⟩ := recordError_status e s
  simp [h]

/-- The codes of R201 lie in 1 to 4. -/
theorem errorCode_range (e : CmdError) : errorCode e ≠ 0 ∧ (errorCode e).toNat ≤ 4 := by
  cases e <;> decide

theorem whenInRange_true (e : CmdError) (s t : State) : whenInRange true e s t = .next t := rfl

theorem whenInRange_false (e : CmdError) (s t : State) : whenInRange false e s t = .next (recordError e s) := rfl

theorem startEnc_zero (s : State) : startEnc 0#8 s = s := rfl

theorem startEnc_pos (count : Byte) (s : State) (h : count ≠ 0#8) : startEnc count s = s.setRun true 0#8 count :=
  if_neg h

/-- A round edge advances STATE, RCTR and BUSY, and nothing else (R151). -/
theorem encRoundStep_eq (c : Config) (s : State) :
    encRoundStep c s =
      (s.setState (round c s.keys s.state s.rctr.toNat)).setRun (s.busy && s.rctr + 1#8 != s.rlim) (s.rctr + 1#8) s.rlim :=
  rfl

@[simp] theorem encRoundStep_inputs (c : Config) (s : State) : (encRoundStep c s).inputs = s.inputs := rfl

@[simp] theorem encRoundStep_keys (c : Config) (s : State) : (encRoundStep c s).keys = s.keys := rfl

end Sys2Proof.Machine
end

