-- ==== Sys2Proof/Laws/Exec.lean ====
section
/-! SUPPORT. What `exec` can do: every command answers a next state, and leaves the port values alone. -/

namespace Sys2Proof.Machine

/-- Every command completes, for every operand and state, and the ports of the coming edges stay (R200). -/
theorem exec_next (i : Instr) (s : State) : ∃ t, exec i s = .next t ∧ t.inputs = s.inputs := by
  have guard (ok : Bool) (e : CmdError) (t : State) (ht : t.inputs = s.inputs) :
      ∃ u, whenInRange ok e s t = .next u ∧ u.inputs = s.inputs := by
    cases ok
    · exact ⟨_, rfl, recordError_inputs e s⟩
    · exact ⟨_, rfl, ht⟩
  have start (count : Byte) : (startEnc count s).inputs = s.inputs := by
    by_cases h : count = 0#8
    · rw [h, startEnc_zero]
    · rw [startEnc_pos count s h]; rfl
  cases i with
  | nop => exact ⟨s, rfl, rfl⟩
  | ld reg => exact ⟨_, rfl, setBlock_inputs s reg _⟩
  | rd sel => exact guard _ _ _ (setDout_inputs s _)
  | enc count => exact guard _ _ _ (start count)
  | mc => exact ⟨_, rfl, setState_inputs s _⟩
  | arc index => exact guard _ _ _ (setState_inputs s _)
  | atk index => exact ⟨_, rfl, setState_inputs s _⟩
  | pn => exact ⟨_, rfl, setState_inputs s _⟩
  | sb => exact ⟨_, rfl, setState_inputs s _⟩
  | rnd index => exact guard _ _ _ (setState_inputs s _)
  | clrerr => exact ⟨_, rfl, setStatus_inputs s _ _⟩
  | srst => exact ⟨_, rfl, resetCore_inputs s⟩

/-! The arms one by one, on the spec's own hardware and for operands in range. -/

theorem exec_nop (s : State) : exec .nop s = .next s := rfl

theorem exec_ld (reg : BlockReg) (s : State) : exec (.ld reg) s = .next (s.setBlock reg (dinBlock s)) := rfl

theorem exec_rd (sel : ReadSel) (s : State) :
    exec (.rd sel) s = .next (s.setDout (readSel Config.hardware sel s)) := by
  have h : (Instr.rd sel).wf Config.hardware = true := by cases sel <;> rfl
  simp only [exec, execRd, h, whenInRange_true]

theorem exec_enc (count : Byte) (s : State) (h : count.toNat ≤ 32) : exec (.enc count) s = .next (startEnc count s) := by
  have h : (Instr.enc count).wf Config.hardware = true := decide_eq_true h
  simp only [exec, execEnc, h, whenInRange_true]

theorem exec_mc (s : State) : exec .mc s = .next (s.setState (mix s.state)) := rfl

theorem exec_arc (index : Byte) (s : State) (h : index.toNat < 32) :
    exec (.arc index) s = .next (s.setState (arc Config.hardware s.state index.toNat)) := by
  have h : (Instr.arc index).wf Config.hardware = true := decide_eq_true h
  simp only [exec, execArc, h, whenInRange_true]

theorem exec_atk (index : Byte) (s : State) :
    exec (.atk index) s = .next (s.setState (atk Config.hardware s.keys s.state index.toNat)) := rfl

theorem exec_pn (s : State) : exec .pn s = .next (s.setState (pn Config.hardware s.state)) := rfl

theorem exec_sb (s : State) : exec .sb s = .next (s.setState (sb Config.hardware s.state)) := rfl

theorem exec_rnd (index : Byte) (s : State) (h : index.toNat < 32) :
    exec (.rnd index) s = .next (s.setState (round Config.hardware s.keys s.state index.toNat)) := by
  have h : (Instr.rnd index).wf Config.hardware = true := decide_eq_true h
  simp only [exec, execRnd, h, whenInRange_true]

theorem exec_clrerr (s : State) : exec .clrerr s = .next (clearError s) := rfl

theorem exec_srst (s : State) : exec .srst s = .next (resetCore s) := rfl

end Sys2Proof.Machine
end

