-- ==== Sys2Proof/Laws/Step.lean ====
section
/-! SUPPORT. The edge events one by one, and the one inversion lemma of `step`. -/

namespace Sys2Proof.Machine

theorem edgeEvent_reset (s : State) (h : s.now.rst = true) : edgeEvent s = .reset := by simp [edgeEvent, h]

theorem edgeEvent_encRound (s : State) (h : s.now.rst = false) (hb : s.busy = true) : edgeEvent s = .encRound := by
  simp [edgeEvent, h, hb]

theorem edgeEvent_accept (s : State) (h : s.now.rst = false) (hb : s.busy = false) (hv : s.now.cmdValid = true) :
    edgeEvent s = .accept s.now.cmd := by
  simp [edgeEvent, h, hb, hv]

theorem edgeEvent_idle (s : State) (h : s.now.rst = false) (hb : s.busy = false) (hv : s.now.cmdValid = false) :
    edgeEvent s = .idle := by
  simp [edgeEvent, h, hb, hv]

theorem step_reset (s : State) (h : s.now.rst = true) : step s = .next (nextEdge (resetCore s)) := by
  simp [step, edgeEvent_reset s h]

theorem step_encRound (s : State) (h : s.now.rst = false) (hb : s.busy = true) :
    step s = .next (nextEdge (encRoundStep Config.hardware s)) := by
  simp [step, edgeEvent_encRound s h hb]

theorem step_idle (s : State) (h : s.now.rst = false) (hb : s.busy = false) (hv : s.now.cmdValid = false) :
    step s = .next (nextEdge s) := by
  simp [step, edgeEvent_idle s h hb hv]

/-- Everything an edge can do (R86): reset, a round of a running ENC, the rejection of a word, a command, or nothing. -/
theorem step_cases {s t : State} (h : step s = .next t) :
    (s.now.rst = true ∧ t = nextEdge (resetCore s)) ∨
    (s.now.rst = false ∧ s.busy = true ∧ t = nextEdge (encRoundStep Config.hardware s)) ∨
    (∃ e, s.now.rst = false ∧ s.busy = false ∧ s.now.cmdValid = true ∧ decode s.now.cmd = .error e ∧
      t = nextEdge (recordError e s)) ∨
    (∃ i u, s.now.rst = false ∧ s.busy = false ∧ s.now.cmdValid = true ∧ decode s.now.cmd = .command i ∧
      exec i s = .next u ∧ t = nextEdge u) ∨
    (s.now.rst = false ∧ s.busy = false ∧ s.now.cmdValid = false ∧ t = nextEdge s) := by
  cases hr : s.now.rst
  · cases hb : s.busy
    · cases hv : s.now.cmdValid
      · rw [step_idle s hr hb hv] at h
        cases h; simp
      · simp only [step, edgeEvent_accept s hr hb hv] at h
        cases hd : decode s.now.cmd with
        | error e => simp only [hd] at h; cases h; simp
        | command i =>
          obtain ⟨u, hu, -⟩ := exec_next i s
          simp only [hd, hu, finishEdge] at h
          cases h; simp [hu]
    · rw [step_encRound s hr hb] at h
      cases h; simp
  · rw [step_reset s hr] at h
    cases h; simp

@[simp] theorem nextEdge_inputs (s : State) : (nextEdge s).inputs = s.inputs.tail := rfl

end Sys2Proof.Machine
end

