-- ==== Sys2Proof/Laws/Edges.lean ====
section
/-! SUPPORT. Edges in a row: one more edge, two stretches, and the agreement with the host's own run. -/

namespace Sys2Proof.Machine

@[simp] theorem edges_zero (s : State) : edges 0 s = .next s := rfl

theorem edges_succ {s t : State} (n : Nat) (h : step s = .next t) : edges (n + 1) s = edges n t := by
  simp [edges, h]

theorem edges_one {s t : State} (h : step s = .next t) : edges 1 s = .next t := edges_succ 0 h

theorem edges_add {s t : State} {m : Nat} (n : Nat) (h : edges m s = .next t) : edges (m + n) s = edges n t := by
  induction m generalizing s with
  | zero => cases h; simp
  | succ m ih =>
    cases hs : step s with
    | next u =>
      rw [edges_succ m hs] at h
      rw [show m + 1 + n = (m + n) + 1 by omega, edges_succ _ hs, ih h]
    | fault r => simp [edges, hs] at h
    | refused r => simp [edges, hs] at h

/-- The host's run of the core is the same. -/
theorem edges_eq_run (n : Nat) (s : State) : edges n s = Host.Core.run Sys2Proof.core n s := by
  induction n generalizing s with
  | zero => rfl
  | succ n ih =>
    simp only [edges, Host.Core.run, Sys2Proof.core]
    cases step s with
    | next t => exact ih t
    | fault r => rfl
    | refused r => rfl

theorem accepts_eq (s : State) : accepts s = true ↔ s.now.rst = false ∧ s.busy = false ∧ s.now.cmdValid = true := by
  simp only [accepts, cmdReady, Bool.and_eq_true, Bool.not_eq_true']
  tauto

/-- An edge that accepts a command runs it. -/
theorem step_accepts {s : State} {i : Instr} (h : AcceptsCommand s i) : step s = finishEdge (exec i s) := by
  obtain ⟨ha, hd⟩ := h
  obtain ⟨hr, hb, hv⟩ := (accepts_eq s).1 ha
  simp [step, edgeEvent_accept s hr hb hv, hd]

/-- An edge that rejects a word records the error. -/
theorem step_rejects {s : State} {e : CmdError} (h : Rejects s e) : step s = .next (nextEdge (recordError e s)) := by
  obtain ⟨ha, hd⟩ := h
  obtain ⟨hr, hb, hv⟩ := (accepts_eq s).1 ha
  simp [step, edgeEvent_accept s hr hb hv, hd]

/-- An edge at which a word that decodes to a command is presented, with `rst` low and no ENC running. -/
theorem step_present {s t : State} {i : Instr} {w : CmdWord} {d : DataWord} {rest : List PortIn} (hb : s.busy = false)
    (hw : decode w = .command i) (h : exec i (s.setInputs (present w d :: rest)) = .next t) :
    step (s.setInputs (present w d :: rest)) = .next (nextEdge t) := by
  have ha : AcceptsCommand (s.setInputs (present w d :: rest)) i := ⟨(accepts_eq _).2 ⟨rfl, hb, rfl⟩, hw⟩
  rw [step_accepts ha, h]; rfl

theorem nextEdge_setInputs (s : State) (x : PortIn) (l : List PortIn) :
    nextEdge (s.setInputs (x :: l)) = s.setInputs l := rfl

end Sys2Proof.Machine
end

