-- ==== Sys2Proof/Laws/PerInstr.lean ====
section
/-! SUPPORT. The family EncodingMatchesTable: the encoded word of a command matches the row of its operation in the table of
R79, whatever its operands. -/

namespace Sys2Proof.Laws.EncodingMatchesTable

/-- The row of the command's operation is in the table, and the command's word matches it (R79). -/
def Statement (i : Instr) : Prop := ∃ row ∈ patternRows, row.op = i.op ∧ row.matchesWord (encode i) = true

theorem nop : Statement .nop :=
  ⟨⟨.nop, 0x00000000, 0xFFFFFFFF⟩, by decide, rfl, by decide⟩

theorem ld (reg : BlockReg) : Statement (.ld reg) :=
  ⟨⟨.ld, 0x10000000, 0xF0FFFFFF⟩, by decide, rfl, by cases reg <;> decide⟩

theorem rd (sel : ReadSel) : Statement (.rd sel) :=
  ⟨⟨.rd, 0x20000000, 0xF0FFFFFF⟩, by decide, rfl, by
    cases sel with
    | block r => cases r <;> decide
    | tk j => revert j; decide
    | dtk j => revert j; decide
    | status => decide⟩

theorem enc (count : Byte) : Statement (.enc count) :=
  ⟨⟨.enc, 0x30000000, 0xFFFFFF00⟩, by decide, rfl, by revert count; decide⟩

theorem mc : Statement .mc :=
  ⟨⟨.mc, 0x40000000, 0xFFFFFFFF⟩, by decide, rfl, by decide⟩

theorem arc (index : Byte) : Statement (.arc index) :=
  ⟨⟨.arc, 0x50000000, 0xFFFF00FF⟩, by decide, rfl, by revert index; decide⟩

theorem atk (index : Byte) : Statement (.atk index) :=
  ⟨⟨.atk, 0x60000000, 0xFFFF00FF⟩, by decide, rfl, by revert index; decide⟩

theorem pn : Statement .pn :=
  ⟨⟨.pn, 0x70000000, 0xFFFFFFFF⟩, by decide, rfl, by decide⟩

theorem sb : Statement .sb :=
  ⟨⟨.sb, 0x80000000, 0xFFFFFFFF⟩, by decide, rfl, by decide⟩

theorem rnd (index : Byte) : Statement (.rnd index) :=
  ⟨⟨.rnd, 0x90000000, 0xFFFF00FF⟩, by decide, rfl, by revert index; decide⟩

theorem clrerr : Statement .clrerr :=
  ⟨⟨.clrerr, 0xE0000000, 0xFFFFFFFF⟩, by decide, rfl, by decide⟩

theorem srst : Statement .srst :=
  ⟨⟨.srst, 0xF0000000, 0xFFFFFFFF⟩, by decide, rfl, by decide⟩

end Sys2Proof.Laws.EncodingMatchesTable
end

