-- ==== Sys2Proof/Laws/Rounds.lean ====
section
/-! SUPPORT. What the cipher's functions give at one nibble, and one round of an encryption. -/

namespace Sys2Proof.Machine

theorem mix_get (b : Block) (i : Nat) (h : i < 16) :
    (mix b)[i] = if h : i < 4 then b[i] ^^^ b[i + 8] ^^^ b[i + 12]
      else if h : i < 8 then b[i] ^^^ b[i + 8] else b[i] := by
  simp [mix]

theorem mix_get_row0 (b : Block) (i : Nat) (h : i < 4) : (mix b)[i] = b[i] ^^^ b[i + 8] ^^^ b[i + 12] := by
  simp [mix_get, h]

theorem mix_get_row1 (b : Block) (i : Nat) (h : i < 4) : (mix b)[i + 4] = b[i + 4] ^^^ b[i + 12] := by
  have : i + 4 < 8 := by omega
  simp [mix_get, this]

theorem mix_get_low (b : Block) (i : Nat) (h : 8 ≤ i) (h' : i < 16) : (mix b)[i] = b[i] := by
  have h4 : ¬ i < 4 := by omega
  have h8 : ¬ i < 8 := by omega
  simp [mix_get, h4, h8]

theorem tk_get_0 (c : Config) (k : Keys) (i : Nat) (h : i < 16) : (tk c k 0)[i] = k.key0[i] ^^^ k.tweak[i] := by
  simp [tk]

theorem tk_get_1 (c : Config) (k : Keys) (i : Nat) (h : i < 16) : (tk c k 1)[i] = k.key1[i] ^^^ k.tweak[i] := by
  simp [tk]

theorem tk_get_2 (c : Config) (k : Keys) (i : Nat) (h : i < 16) :
    (tk c k 2)[i] = k.key0[i] ^^^ k.tweak[c.permQ[i]] := by
  simp [tk]

theorem tk_get_3 (c : Config) (k : Keys) (i : Nat) (h : i < 16) :
    (tk c k 3)[i] = k.key1[i] ^^^ k.tweak[c.permQ[i]] := by
  simp [tk]

theorem arc_get (c : Config) (b : Block) (r : Nat) (i : Nat) (h : i < 16) :
    (arc c b r)[i] = if i = 5 then b[5] ^^^ (roundConstB c r).setWidth 4
      else if i = 4 then b[4] ^^^ roundConstA c r else b[i] := by
  simp only [arc, Vector.getElem_set]
  by_cases h5 : i = 5
  · subst h5; simp
  · by_cases h4 : i = 4
    · subst h4; simp
    · simp [Ne.symm h5, Ne.symm h4, h5, h4]

/-- Inside the table the round constants are its entries (R123). -/
theorem roundConstA_eq (c : Config) (r : Nat) (h : r < c.rcA.length) : roundConstA c r = c.rcA[r] := by
  simp [roundConstA, h]

theorem roundConstB_eq (c : Config) (r : Nat) (h : r < c.rcB.length) : roundConstB c r = c.rcB[r] := by
  simp [roundConstB, h]

theorem atk_get (c : Config) (k : Keys) (b : Block) (r : Nat) (i : Nat) (h : i < 16) :
    (atk c k b r)[i] = b[i] ^^^ (tk c k (slotOf r))[i] := by
  simp [atk]

theorem pn_get (c : Config) (b : Block) (hp : ∀ i j : Fin 16, c.permP[i] = c.permP[j] → i = j) (i : Fin 16) :
    (pn c b)[(c.permP[i] : Fin 16)] = b[i] :=
  scatter_get c.permP b hp i

@[simp] theorem sb_get (c : Config) (b : Block) (i : Nat) (h : i < 16) : (sb c b)[i] = subNibble c b[i] := by
  simp [sb]

@[simp] theorem encrypt_zero (c : Config) (k : Keys) (b : Block) : encrypt c k b 0 = b := rfl

theorem encrypt_succ (c : Config) (k : Keys) (b : Block) (n : Nat) :
    encrypt c k b (n + 1) = round c k (encrypt c k b n) n := rfl

/-- The slots of a round index (R154). -/
theorem slotOf_val (r : Nat) : (slotOf r).val = r % 4 := rfl

end Sys2Proof.Machine
end

