-- ==== Sys2Proof/Machine/AsmText.lean ====
section
/-! DEFINITION. The assembly text (30_encoding.md R88, R89): "one command per line, the mnemonic first, operands separated by
commas, `;` starting a comment. A number is decimal, or hexadecimal with `0x`". A text is a list of characters.
DESIGN CHOICE, log entry 7: an empty line emits nothing, spaces and tabs separate, and hexadecimal digits may be of either case. -/

namespace Sys2Proof.Machine

/-- The pieces between the separators, in order: one more than there are separators. -/
def splitChars (sep : Char) : List Char → List (List Char)
  | [] => [[]]
  | c :: cs =>
    if c == sep then [] :: splitChars sep cs
    else match splitChars sep cs with
      | [] => [[c]]
      | w :: ws => (c :: w) :: ws

def isBlank (c : Char) : Bool := c == ' ' || c == '\t' || c == '\r'

/-- Without the blanks at both ends. -/
def trimBlanks (l : List Char) : List Char := ((l.dropWhile isBlank).reverse.dropWhile isBlank).reverse

/-- The value of a digit below `base`, 10 or 16. -/
def digitValue (base : Nat) (c : Char) : Option Nat :=
  let n := c.toNat
  let v :=
    if 48 ≤ n ∧ n ≤ 57 then n - 48
    else if 65 ≤ n ∧ n ≤ 70 then n - 55
    else if 97 ≤ n ∧ n ≤ 102 then n - 87
    else 16
  if v < base then some v else none

def digitsValue (base : Nat) : Nat → List Char → Option Nat
  | acc, [] => some acc
  | acc, c :: cs =>
    match digitValue base c with
    | some v => digitsValue base (acc * base + v) cs
    | none => none

/-- "A number is decimal, or hexadecimal with `0x`" (R88). -/
def numberOf : List Char → Option Nat
  | [] => none
  | ['0', 'x'] => none
  | '0' :: 'x' :: ds => digitsValue 16 0 ds
  | ds => digitsValue 10 0 ds

/-- A number that fits `width` bits. A larger one is an operand outside its range, which the assembler refuses (R88). -/
def fieldOf (width : Nat) (l : List Char) : Option (BitVec width) :=
  match numberOf l with
  | some n => if n < 2 ^ width then some (BitVec.ofNat width n) else none
  | none => none

/-- "Register operands are named by the names of 20_memory.md rule R56" (R88): the names LD accepts. -/
def blockRegNamed : List Char → Option BlockReg
  | ['S', 'T', 'A', 'T', 'E'] => some .state
  | ['K', 'E', 'Y', '0'] => some .key0
  | ['K', 'E', 'Y', '1'] => some .key1
  | ['T', 'W', 'E', 'A', 'K'] => some .tweak
  | _ => none

/-- The names RD accepts (R56, R88). -/
def readSelNamed : List Char → Option ReadSel
  | ['T', 'K', '0'] => some (.tk 0)
  | ['T', 'K', '1'] => some (.tk 1)
  | ['T', 'K', '2'] => some (.tk 2)
  | ['T', 'K', '3'] => some (.tk 3)
  | ['D', 'T', 'K', '0'] => some (.dtk 0)
  | ['D', 'T', 'K', '1'] => some (.dtk 1)
  | ['D', 'T', 'K', '2'] => some (.dtk 2)
  | ['D', 'T', 'K', '3'] => some (.dtk 3)
  | ['S', 'T', 'A', 'T', 'U', 'S'] => some .status
  | l => (blockRegNamed l).map .block

/-- The lines one source line stands for: a command, `.WORD`, or the expansion of a pseudo-instruction (R88, R89). -/
def linesOf (mnemonic : List Char) (operands : List (List Char)) : Option (List AsmLine) :=
  match mnemonic, operands with
  | ['N', 'O', 'P'], [] => some [.command .nop 0]
  | ['L', 'D'], [r, v] =>
    match blockRegNamed r, fieldOf 64 v with
    | some r, some v => some [.command (.ld r) v]
    | _, _ => none
  | ['R', 'D'], [v] => (readSelNamed v).map fun v => [.command (.rd v) 0]
  | ['E', 'N', 'C'], [n] => (fieldOf 8 n).map fun n => [.command (.enc n) 0]
  | ['M', 'C'], [] => some [.command .mc 0]
  | ['A', 'R', 'C'], [r] => (fieldOf 8 r).map fun r => [.command (.arc r) 0]
  | ['A', 'T', 'K'], [r] => (fieldOf 8 r).map fun r => [.command (.atk r) 0]
  | ['P', 'N'], [] => some [.command .pn 0]
  | ['S', 'B'], [] => some [.command .sb 0]
  | ['R', 'N', 'D'], [r] => (fieldOf 8 r).map fun r => [.command (.rnd r) 0]
  | ['C', 'L', 'R', 'E', 'R', 'R'], [] => some [.command .clrerr 0]
  | ['S', 'R', 'S', 'T'], [] => some [.command .srst 0]
  | ['.', 'W', 'O', 'R', 'D'], [w] => (fieldOf 32 w).map fun w => [.word w]
  | ['S', 'E', 'T', 'K', 'T'], [k0, k1, t] =>
    match fieldOf 64 k0, fieldOf 64 k1, fieldOf 64 t with
    | some k0, some k1, some t => some (expand (.setkt k0 k1 t))
    | _, _, _ => none
  | ['E', 'N', 'C', 'R', 'Y', 'P', 'T'], [p, n] =>
    match fieldOf 64 p, fieldOf 8 n with
    | some p, some n => some (expand (.encrypt p n))
    | _, _ => none
  | ['S', 'T', 'E', 'P', 'R', 'O', 'U', 'N', 'D'], [r] => (fieldOf 8 r).map fun r => expand (.stepround r)
  | ['L', 'I', 'N', 'R', 'O', 'U', 'N', 'D'], [r] => (fieldOf 8 r).map fun r => expand (.linround r)
  | _, _ => none

/-- One source line: the comment dropped, the mnemonic, then the operands (R88). -/
def parseLine (l : List Char) : Option (List AsmLine) :=
  let body := trimBlanks (l.takeWhile fun c => c != ';')
  let operands := trimBlanks (body.dropWhile fun c => !isBlank c)
  if body.isEmpty then some []
  else linesOf (body.takeWhile fun c => !isBlank c)
    (if operands.isEmpty then [] else (splitChars ',' operands).map trimBlanks)

/-- The lines of a text in order, or nothing if one line is not of the syntax of R88 and R89. -/
def parseLines : List (List Char) → Option (List AsmLine)
  | [] => some []
  | l :: ls =>
    match parseLine l, parseLines ls with
    | some a, some b => some (a ++ b)
    | _, _ => none

/-- The words and data words of an assembly text (R88, R89). -/
def assembleText (c : Config) (text : List Char) : Option (List (CmdWord × DataWord)) :=
  match parseLines (splitChars '\n' text) with
  | some l => assemble c l
  | none => none

end Sys2Proof.Machine
end

