-- ==== Sys2Proof/Tests/Slice0.lean ====
section
/-! SUPPORT. Tests. Every expected value is copied from spec/ (95_test_vectors.md, unless a comment names another file) or worked
out by hand from a rule; none is an answer of the model. Then, for each statement with hypotheses, a named witness that meets them. -/

namespace Sys2Proof.Tests

open Sys2Proof.Machine

/-- Key set KS1 of 95_test_vectors.md. -/
def ks1 : Keys := ⟨unpack 0x0123456789ABCDEF, unpack 0xFEDCBA9876543210, unpack 0x0F1E2D3C4B5A6978⟩

/-- The reset state with KS1 and a STATE loaded. -/
def loaded (w : DataWord) : State :=
  { State.reset with state := unpack w, key0 := ks1.key0, key1 := ks1.key1, tweak := ks1.tweak }

/-- The loaded state with words presented at the coming edges, each with the same data word. -/
def presenting (l : List CmdWord) (d : DataWord) : State :=
  (loaded 0x0123456789ABCDEF).setInputs (l.map fun w => present w d)

/-- An ENC with `left` rounds to go of 32. -/
def running (left : Byte) (l : List PortIn) : State := ((loaded 0x0123456789ABCDEF).setRun true (32 - left) 32).setInputs l

/-- A recorded ILLEGAL_OP. -/
def withError (s : State) : State := s.setStatus true 1

/-- The hardware without the decryption-oriented schedule. -/
def withoutDtk : Config := { Config.hardware with dtkPresent := false }

/-- The ports of an edge with `rst` asserted. -/
def rstPort : PortIn := { PortIn.idle with rst := true }

/-- STATE as a word, DOUT, STATUS, BUSY of an outcome. -/
def stateOf : Result → Option DataWord
  | .next t => some (pack t.state)
  | .fault _ => none
  | .refused _ => none

def doutOf : Result → Option DataWord
  | .next t => some t.dout
  | .fault _ => none
  | .refused _ => none

def statusOf : Result → Option Byte
  | .next t => some (statusByte t)
  | .fault _ => none
  | .refused _ => none

def busyOf : Result → Option Bool
  | .next t => some t.busy
  | .fault _ => none
  | .refused _ => none

/-- The state after one edge. -/
def stepped (s : State) : State :=
  match step s with
  | .next t => t
  | .fault _ => s
  | .refused _ => s

/-! ## WellFormed: each check refuses an ill-formed command (R80) -/

theorem test_wf_refuses_enc_33 : (Instr.enc 33).wf Config.hardware = false := by decide
theorem test_wf_refuses_arc_32 : (Instr.arc 32).wf Config.hardware = false := by decide
theorem test_wf_refuses_rnd_255 : (Instr.rnd 255).wf Config.hardware = false := by decide
theorem test_wf_refuses_dtk_where_absent :
    (Instr.rd (.dtk 3)).wf withoutDtk = false := by decide
theorem test_wf_admits_the_largest_operands :
    (Instr.enc 32).wf Config.hardware = true ∧ (Instr.arc 31).wf Config.hardware = true ∧
    (Instr.rnd 31).wf Config.hardware = true ∧ (Instr.atk 255).wf Config.hardware = true := by decide

/-! ## Decode: words written out from the fields of R71 (OP, SEL, RSV, RIDX, RCNT), every constructor once -/

theorem test_decode_nop : decode 0b0000_0000_00000000_00000000_00000000 = .command .nop := by decide
theorem test_decode_ld_key1 : decode 0b0001_0010_00000000_00000000_00000000 = .command (.ld .key1) := by decide
theorem test_decode_rd_tk2 : decode 0b0010_0110_00000000_00000000_00000000 = .command (.rd (.tk 2)) := by decide
theorem test_decode_rd_dtk3 : decode 0b0010_1011_00000000_00000000_00000000 = .command (.rd (.dtk 3)) := by decide
theorem test_decode_rd_status : decode 0b0010_1100_00000000_00000000_00000000 = .command (.rd .status) := by decide
theorem test_decode_enc_32 : decode 0b0011_0000_00000000_00000000_00100000 = .command (.enc 32) := by decide
theorem test_decode_mc : decode 0b0100_0000_00000000_00000000_00000000 = .command .mc := by decide
theorem test_decode_arc_31 : decode 0b0101_0000_00000000_00011111_00000000 = .command (.arc 31) := by decide
theorem test_decode_atk_129 : decode 0b0110_0000_00000000_10000001_00000000 = .command (.atk 129) := by decide
theorem test_decode_pn : decode 0b0111_0000_00000000_00000000_00000000 = .command .pn := by decide
theorem test_decode_sb : decode 0b1000_0000_00000000_00000000_00000000 = .command .sb := by decide
theorem test_decode_rnd_5 : decode 0b1001_0000_00000000_00000101_00000000 = .command (.rnd 5) := by decide
theorem test_decode_clrerr : decode 0b1110_0000_00000000_00000000_00000000 = .command .clrerr := by decide
theorem test_decode_srst : decode 0b1111_0000_00000000_00000000_00000000 = .command .srst := by decide

/-- V-DEC, the rejected words. -/
theorem test_decode_rejects :
    decode 0x00000001 = .error .rsvdNonzero ∧ decode 0x00010000 = .error .rsvdNonzero ∧
    decode 0x14000000 = .error .illegalSel ∧ decode 0x1F000000 = .error .illegalSel ∧
    decode 0x1F010000 = .error .rsvdNonzero ∧ decode 0x10000100 = .error .rsvdNonzero ∧
    decode 0x2D000000 = .error .illegalSel ∧ decode 0x30000021 = .error .argRange ∧
    decode 0x31000004 = .error .rsvdNonzero ∧ decode 0x30000104 = .error .rsvdNonzero ∧
    decode 0x50002000 = .error .argRange ∧ decode 0x50000001 = .error .rsvdNonzero ∧
    decode 0x61000000 = .error .rsvdNonzero ∧ decode 0x90002000 = .error .argRange ∧
    decode 0xA1FF0000 = .error .illegalOp ∧ decode 0xDFFFFFFF = .error .illegalOp ∧
    decode 0xE0000001 = .error .rsvdNonzero ∧ decode 0xF0800000 = .error .rsvdNonzero := by decide

/-- V-DEC, last line: the DTK codes where the schedule is absent. -/
theorem test_decode_dtk_absent :
    decodeIn withoutDtk 0x28000000 = .error .illegalSel ∧
    decodeIn withoutDtk 0x2B000000 = .error .illegalSel ∧
    decodeIn withoutDtk 0x27000000 = .command (.rd (.tk 3)) ∧
    decodeIn withoutDtk 0x2C000000 = .command (.rd .status) := by decide

/-- The encoder, on words of V-DEC. -/
theorem test_encode :
    encode (.ld .tweak) = 0x13000000 ∧ encode (.rd (.dtk 0)) = 0x28000000 ∧ encode (.enc 32) = 0x30000020 ∧
    encode (.arc 31) = 0x50001F00 ∧ encode (.atk 255) = 0x6000FF00 ∧ encode .srst = 0xF0000000 := by decide

/-- The rows of R79 do not overlap: no word matches two of them. -/
theorem test_pattern_rows_are_disjoint :
    patternRows.Pairwise fun a b => a.pattern &&& a.mask &&& b.mask ≠ b.pattern &&& a.mask &&& b.mask := by decide

/-- The interface of the opcode table: `decodeTableWord` reads the word, and the step of the placed word runs it. -/
theorem test_table_word : decodeTableWord 32 0x13000000 = some (.ld .tweak) ∧ decodeTableWord 32 0xA0000000 = none := by decide

theorem test_step_runs_placed_word :
    stateOf (step (State.reset.withFetchWord 32 0x80000000)) = some 0xCCCCCCCCCCCCCCCC := by decide

/-! ## The tables: the linear recurrences of R105 and the shape of R102, R103 -/

/-- R105: both sequences start at 1, and each next entry is the last one shifted right, its top bit the XOR of the two lowest. -/
theorem test_round_constants_are_shift_registers :
    Config.defaultRcA = (1 : Nibble) :: (Config.defaultRcA.take 31).map (fun a : Nibble => (a >>> 1) ||| (((a ^^^ a >>> 1) &&& (1 : Nibble)) <<< 3)) ∧
    Config.defaultRcB = (1 : BitVec 3) :: (Config.defaultRcB.take 31).map (fun b : BitVec 3 => (b >>> 1) ||| (((b ^^^ b >>> 1) &&& (1 : BitVec 3)) <<< 2)) := by
  decide

theorem test_hardware_configuration_is_legal : Config.hardware.Wf := by unfold Config.Wf; decide

/-! ## One command, one step -/

theorem test_nop : exec .nop (withError (loaded 0x1234)) = .next (withError (loaded 0x1234)) := rfl

/-- V-LDRD. -/
theorem test_ld_state :
    stateOf (step (presenting [0x10000000] 0xFEDCBA9876543210)) = some 0xFEDCBA9876543210 := by decide
theorem test_ld_leaves_dout :
    doutOf (step ((presenting [0x10000000] 0xFFFFFFFFFFFFFFFF).setDout 0x1234)) = some 0x1234 := by decide

/-- V-TK-1, V-TK-2. -/
theorem test_rd_tk2 : doutOf (exec (.rd (.tk 2)) (loaded 0)) = some 0x64AE31D62769FD16 := by decide
theorem test_rd_dtk3 : doutOf (exec (.rd (.dtk 3)) (loaded 0)) = some 0x412ECCC0D89602E9 := by decide

/-- R151 at the accepting edge; V-ENC-5. -/
theorem test_enc_starts : busyOf (step (presenting [0x30000004] 0)) = some true := by decide
theorem test_enc_33_is_rejected : statusOf (step (presenting [0x30000021] 0)) = some 0x41 := by decide

/-- V-MC. -/
theorem test_mc : stateOf (exec .mc (loaded 0x123456789ABCDEF0)) = some 0x567888889ABCDEF0 := by decide
theorem test_mc_nibble_13 : stateOf (exec .mc (loaded 0x0000000000000100)) = some 0x0100010000000100 := by decide

/-- V-ARC. -/
theorem test_arc_15 : stateOf (exec (.arc 15) (loaded 0)) = some 0x0000140000000000 := by decide
theorem test_arc_30 : stateOf (exec (.arc 30) (loaded 0)) = some 0x0000120000000000 := by decide

/-- V-ATK. -/
theorem test_atk_2 : stateOf (exec (.atk 2) (loaded 0x0123456789ABCDEF)) = some 0x658D74B1AEC230F9 := by decide
theorem test_atk_255 : stateOf (exec (.atk 255) (loaded 0x0123456789ABCDEF)) = some 0x9A728B4E513DCF06 := by decide

/-- V-PN. -/
theorem test_pn : stateOf (exec .pn (loaded 0x123456789ABCDEF0)) = some 0x0DEFBA9C76582341 := by decide
theorem test_pn_nibble_4 : stateOf (exec .pn (loaded 0x0000100000000000)) = some 0x0000000000100000 := by decide

/-- V-SB. -/
theorem test_sb : stateOf (exec .sb (loaded 0x123456789ABCDEF0)) = some 0xAD3EBF789150246C := by decide
theorem test_sb_fixed_points : stateOf (exec .sb (loaded 0x3789378937893789)) = some 0x3789378937893789 := by decide

/-- V-RND-2. -/
theorem test_rnd_2 : stateOf (exec (.rnd 2) (loaded 0x0123456789ABCDEF)) = some 0x93C6041DB564A09D := by decide
theorem test_rnd_31 : stateOf (exec (.rnd 31) (loaded 0x0123456789ABCDEF)) = some 0xF06C3AB2130A43F2 := by decide

/-- P4, steps 1, 2 and 5. -/
theorem test_illegal_op_is_recorded : statusOf (step (presenting [0xA0000000] 0)) = some 0x11 := by decide
theorem test_rd_status : doutOf (exec (.rd .status) (withError State.reset)) = some 0x11 := by decide
theorem test_clrerr : statusOf (exec .clrerr (withError State.reset)) = some 0x00 := by decide

/-- R178: SRST clears the keys as well. -/
theorem test_srst : exec .srst (withError (loaded 0x1234)) = .next State.reset := rfl

/-- V-ENC-2 and V-ENC-4, as Blocks. -/
theorem test_encrypt_ks1_5 : pack (encrypt Config.hardware ks1 (unpack 0x0123456789ABCDEF) 5) = 0x4942E15FE44F5243 := by decide
theorem test_encrypt_ksf_3 :
    pack (encrypt Config.hardware ⟨unpack 0xFFFFFFFFFFFFFFFF, zeroBlock, unpack 0x0123456789ABCDEF⟩
      (unpack 0xFEDCBA9876543210) 3) = 0x1B20061C9F4D9BB5 := by decide

/-- V-TIME. -/
theorem test_cycles :
    cycles Config.hardware 0x10000000 = 1 ∧ cycles Config.hardware 0x30000000 = 1 ∧ cycles Config.hardware 0x30000004 = 5 ∧
    cycles Config.hardware 0x30000020 = 33 ∧ cycles Config.hardware 0x30000021 = 1 := by decide

/-- R88: the assembler refuses `ENC 33`, and puts 0 on `din` for a command other than LD. -/
theorem test_assembler :
    assembleLine Config.hardware (.command (.enc 33) 0) = none ∧
    assembleLine Config.hardware (.command (.arc 31) 7) = some (0x50001F00, 0) ∧
    assembleLine Config.hardware (.command (.ld .key0) 7) = some (0x11000000, 7) ∧
    assembleLine Config.hardware (.word 0xA0000000) = some (0xA0000000, 0) := by decide

/-- R88, R89: `LD KEY0, 0x1F ; k`, `ARC 31`, a comment alone, `.WORD 0xA0000000`, `LINROUND 7`, one line each. -/
theorem test_assembly_text :
    assembleText Config.hardware (['L', 'D', ' ', 'K', 'E', 'Y', '0', ',', ' ', '0', 'x', '1', 'F', ' ', ';', ' ', 'k', '\n'] ++
      ['A', 'R', 'C', ' ', '3', '1', '\n', ';', '-', '\n', '.', 'W', 'O', 'R', 'D', ' ', '0', 'x', 'A', '0'] ++
      ['0', '0', '0', '0', '0', '0', '\n', 'L', 'I', 'N', 'R', 'O', 'U', 'N', 'D', ' ', '7']) =
    some [(0x11000000, 0x1F), (0x50001F00, 0), (0xA0000000, 0), (0x40000000, 0), (0x50000700, 0), (0x60000700, 0)] := by decide

/-- R88: `ARC 32`, `ATK 256` and `LD STATUS, 0` are refused. -/
theorem test_assembly_text_refuses :
    assembleText Config.hardware ['A', 'R', 'C', ' ', '3', '2'] = none ∧
    assembleText Config.hardware ['A', 'T', 'K', ' ', '2', '5', '6'] = none ∧
    assembleText Config.hardware ['L', 'D', ' ', 'S', 'T', 'A', 'T', 'U', 'S', ',', '0'] = none := by decide

/-! ## Witnesses: states and operands that meet the hypotheses of each statement, clause by clause -/

/-- For a statement about an accepted command: the word on the port is accepted and decodes to it. -/
theorem accepts_presented {s : State} {i : Instr} (ha : accepts s = true) (hd : decode s.now.cmd = .command i) :
    AcceptsCommand s i := ⟨ha, hd⟩

theorem witness_ResetSetsEveryRegister :
    RegistersReset State.reset ∧ (running 7 [rstPort, PortIn.idle]).now.rst = true ∧
    (stepped (running 7 [rstPort, PortIn.idle])).now.rst = false := by
  refine ⟨?_, ?_⟩ <;> [unfold RegistersReset; skip] <;> decide

theorem witness_ResetAbortsRunningEnc :
    (running 7 [rstPort, PortIn.idle, PortIn.idle]).busy = true ∧
    (running 7 [rstPort, PortIn.idle, PortIn.idle]).inputs = rstPort :: ([PortIn.idle] ++ [PortIn.idle]) ∧ rstPort.rst = true ∧
    ∀ y ∈ [PortIn.idle], y.rst = false ∧ y.cmdValid = false := by decide

theorem witness_EdgeTakesFirstCase :
    (running 1 [rstPort]).now.rst = true ∧
    ((running 1 []).now.rst = false ∧ (running 1 []).busy = true) ∧
    ((presenting [0xDFFFFFFF] 0).now.rst = false ∧ (presenting [0xDFFFFFFF] 0).busy = false ∧
      (presenting [0xDFFFFFFF] 0).now.cmdValid = true ∧ decode (presenting [0xDFFFFFFF] 0).now.cmd = .error .illegalOp) ∧
    ((presenting [0xE0000000] 0).now.rst = false ∧ (presenting [0xE0000000] 0).busy = false ∧
      (presenting [0xE0000000] 0).now.cmdValid = true ∧ decode (presenting [0xE0000000] 0).now.cmd = .command .clrerr) ∧
    (State.reset.now.rst = false ∧ State.reset.busy = false ∧ State.reset.now.cmdValid = false) := by decide

theorem witness_StepRunsDecodedCommand :
    (presenting [0x90001F00] 0).now.rst = false ∧ (presenting [0x90001F00] 0).busy = false ∧
    (presenting [0x90001F00] 0).now.cmdValid = true ∧ decode (presenting [0x90001F00] 0).now.cmd = .command (.rnd 31) := by decide

theorem witness_IdleCoreHoldsItsState :
    (loaded 1).busy = false ∧ ∀ x ∈ ((loaded 1).setInputs [PortIn.idle, rstPort]).inputs.take 1,
      x.rst = false ∧ x.cmdValid = false := by decide

theorem witness_UnreadyCoreIgnoresCommandPort :
    ((present 0x40000000 0).rst = PortIn.idle.rst ∧
      cmdReady ((running 1 []).setInputs (present 0x40000000 0 :: [])) = false) ∧
    (rstPort.rst = rstPort.rst ∧ cmdReady (State.reset.setInputs (rstPort :: [])) = false) := by decide

theorem witness_HeldCommandIsAcceptedAfterEnc :
    ∃ s : State, Legal s ∧ s.busy = true ∧ s.now.cmdValid = true ∧
      ∀ (k : Nat) (u : State), k < s.rlim.toNat - s.rctr.toNat → edges k s = .next u → u.now.rst = false ∧ HostHolds u := by
  refine ⟨running 1 [present 0x20000000 0, present 0x20000000 0], ⟨⟨by decide, by decide⟩, by decide, by decide, by decide⟩,
    rfl, rfl, fun k u hk hu => ?_⟩
  obtain rfl : k = 0 := by
    have : (running 1 [present 0x20000000 0, present 0x20000000 0]).rlim.toNat -
      (running 1 [present 0x20000000 0, present 0x20000000 0]).rctr.toNat = 1 := by decide
    omega
  obtain rfl : running 1 [present 0x20000000 0, present 0x20000000 0] = u := Host.Outcome.next.inj hu
  exact ⟨rfl, fun _ _ => ⟨rfl, rfl, rfl⟩⟩

theorem witness_DinIsReadByLdOnly :
    (∀ r, ¬ AcceptsCommand (State.reset.setInputs (present 0x20000000 5 :: [])) (.ld r)) ∧
    (∀ r, ¬ AcceptsCommand ((running 1 []).setInputs (present 0x10000000 5 :: [])) (.ld r)) := by
  refine ⟨fun r h => ?_, fun r h => absurd h.1 (by decide)⟩
  have h : decode 0x20000000 = .command (.ld r) := h.2
  revert h; cases r <;> decide

theorem witness_EveryEdgeKeepsLegalStates :
    Legal (running 1 []) ∧ ∃ t, step (running 1 []) = .next t :=
  ⟨⟨⟨by decide, by decide⟩, by decide, by decide, by decide⟩, _, step_encRound _ rfl rfl⟩

/-- Each register does change at some edge. -/
theorem witness_RegistersChangeOnlyByTheirWriters :
    (stepped (presenting [0x11000000] 5)).key0 ≠ (presenting [0x11000000] 5).key0 ∧
    (stepped (presenting [0x12000000] 5)).key1 ≠ (presenting [0x12000000] 5).key1 ∧
    (stepped (presenting [0xF0000000] 5)).tweak ≠ (presenting [0xF0000000] 5).tweak ∧
    (stepped (presenting [0x27000000] 5)).dout ≠ (presenting [0x27000000] 5).dout ∧
    (stepped (presenting [0x14000000] 5)).ecode ≠ (presenting [0x14000000] 5).ecode ∧
    (stepped (running 1 [])).state ≠ (running 1 []).state ∧
    (stepped (presenting [0x30000020] 5)).busy ≠ (presenting [0x30000020] 5).busy ∧
    (stepped (running 1 [])).rctr ≠ (running 1 []).rctr := by decide

theorem witness_DecodeOfEncodeIsTheCommand :
    (Instr.enc 32).wf Config.hardware = true ∧ (Instr.rnd 31).wf Config.hardware = true ∧
    (Instr.rd (.dtk 3)).wf Config.hardware = true ∧ (Instr.atk 255).wf Config.hardware = true := by decide

theorem witness_DecodedWordIsTheCommandsWord :
    decodeIn Config.hardware 0x30000020 = .command (.enc 32) ∧ decodeIn Config.hardware 0x2B000000 = .command (.rd (.dtk 3)) := by
  decide

theorem witness_ErrorCodeIsTheFirstFailingCheck :
    (FailsOp 0xA0000000 ∧ FailsOp 0xDFFFFFFF) ∧ (¬ FailsOp 0x00000001 ∧ FailsReserved 0x00000001) ∧
    (¬ FailsOp 0x14000000 ∧ ¬ FailsReserved 0x14000000 ∧ FailsSel Config.hardware 0x14000000) ∧
    (¬ FailsOp 0x2D000000 ∧ ¬ FailsReserved 0x2D000000 ∧ FailsSel Config.hardware 0x2D000000) ∧
    (¬ FailsOp 0x2B000000 ∧ ¬ FailsReserved 0x2B000000 ∧ FailsSel withoutDtk 0x2B000000) ∧
    (¬ FailsOp 0x30000021 ∧ ¬ FailsReserved 0x30000021 ∧ ¬ FailsSel Config.hardware 0x30000021 ∧
      FailsRange Config.hardware 0x30000021) ∧
    (¬ FailsOp 0x90002000 ∧ ¬ FailsReserved 0x90002000 ∧ ¬ FailsSel Config.hardware 0x90002000 ∧
      FailsRange Config.hardware 0x90002000) ∧
    (¬ FailsOp 0x30000020 ∧ ¬ FailsReserved 0x30000020 ∧ ¬ FailsSel Config.hardware 0x30000020 ∧
      ¬ FailsRange Config.hardware 0x30000020) := by
  refine ⟨?_, ?_, ?_, ?_, ?_, ?_, ?_, ?_⟩ <;> decide

theorem witness_NonzeroReservedFieldIsRejected :
    ¬ FailsOp 0x00010000 ∧ (0x00010000 : CmdWord).extractLsb' 16 8 ≠ 0 ∧
    ¬ FailsOp 0xFFFFFFFF ∧ (0xFFFFFFFF : CmdWord).extractLsb' 16 8 ≠ 0 := by decide

theorem witness_RoundIndexField :
    ¬ FailsOp 0x00000100 ∧ (0x00000100 : CmdWord).extractLsb' 28 4 ≠ 0x5 ∧ (0x00000100 : CmdWord).extractLsb' 28 4 ≠ 0x6 ∧
    (0x00000100 : CmdWord).extractLsb' 28 4 ≠ 0x9 ∧ (0x00000100 : CmdWord).extractLsb' 8 8 ≠ 0 := by decide

theorem witness_RoundCountField :
    ¬ FailsOp 0x50000001 ∧ (0x50000001 : CmdWord).extractLsb' 28 4 ≠ 0x3 ∧ (0x50000001 : CmdWord).extractLsb' 0 8 ≠ 0 := by decide

theorem witness_NopChangesNothing :
    (0x0FFFFFFF : CmdWord).extractLsb' 28 4 = 0x0 ∧ (0x00000000 : CmdWord).extractLsb' 28 4 = 0x0 ∧
    AcceptsCommand (presenting [0x00000000] 9) .nop := ⟨by decide, by decide, accepts_presented (by decide) (by decide)⟩

theorem witness_LdLoadsOneRegister :
    ((0x10000001 : CmdWord).extractLsb' 28 4 = 0x1 ∧ (0x10000001 : CmdWord).extractLsb' 0 24 ≠ 0) ∧
    ((0x14000000 : CmdWord).extractLsb' 28 4 = 0x1 ∧ (0x14000000 : CmdWord).extractLsb' 0 24 = 0 ∧
      3 < ((0x14000000 : CmdWord).extractLsb' 24 4).toNat) ∧
    (running 1 [present 0x10000000 0]).busy = true ∧
    ((presenting [0x14000000] 0).now.cmd.extractLsb' 28 4 = 0x1 ∧ Rejects (presenting [0x14000000] 0) .illegalSel) :=
  ⟨by decide, by decide, by decide, by decide, ⟨by decide, by decide⟩⟩

theorem witness_RdCopiesIntoDout :
    ((0x20000001 : CmdWord).extractLsb' 28 4 = 0x2 ∧ (0x20000001 : CmdWord).extractLsb' 0 24 ≠ 0) ∧
    ((0x2D000000 : CmdWord).extractLsb' 28 4 = 0x2 ∧ (0x2D000000 : CmdWord).extractLsb' 0 24 = 0 ∧
      12 < ((0x2D000000 : CmdWord).extractLsb' 24 4).toNat) ∧
    ((0x2B000000 : CmdWord).extractLsb' 28 4 = 0x2 ∧ (0x2B000000 : CmdWord).extractLsb' 0 24 = 0 ∧
      withoutDtk.dtkPresent = false ∧
      8 ≤ ((0x2B000000 : CmdWord).extractLsb' 24 4).toNat ∧ ((0x2B000000 : CmdWord).extractLsb' 24 4).toNat ≤ 11) ∧
    ((presenting [0x2D000000] 0).now.cmd.extractLsb' 28 4 = 0x2 ∧ Rejects (presenting [0x2D000000] 0) .illegalSel) ∧
    ((loaded 0x8F97B5E12A635B1E).state = unpack 0x8F97B5E12A635B1E ∧ (loaded 0).key1 = unpack 0xFEDCBA9876543210 ∧
      (withError State.reset).err = true ∧ (withError State.reset).ecode = 1 ∧ (loaded 0).keys = ks1) :=
  ⟨by decide, by decide, by decide, ⟨by decide, by decide, by decide⟩, by decide⟩

theorem witness_ClrerrClearsStatusOnly :
    ((0xE0000001 : CmdWord).extractLsb' 28 4 = 0xE ∧ (0xE0000000 : CmdWord).extractLsb' 28 4 = 0xE) ∧
    (StatusLegal State.reset ∧ State.reset.err = false) ∧
    ((withError (presenting [0xE0000001] 0)).now.cmd.extractLsb' 28 4 = 0xE ∧ (withError (presenting [0xE0000001] 0)).err = true ∧
      Rejects (withError (presenting [0xE0000001] 0)) .rsvdNonzero) ∧
    ((withError State.reset).err = true ∧ (withError State.reset).ecode = 1) :=
  ⟨by decide, ⟨⟨by decide, by decide⟩, rfl⟩, ⟨by decide, by decide, by decide, by decide⟩, by decide⟩

theorem witness_SrstResetsEveryRegister :
    ((0xF0800000 : CmdWord).extractLsb' 28 4 = 0xF ∧ (0xF0000000 : CmdWord).extractLsb' 28 4 = 0xF) ∧
    AcceptsCommand (presenting [0xF0000000] 0) .srst ∧ (running 32 [present 0xF0000000 0]).busy = true :=
  ⟨by decide, accepts_presented (by decide) (by decide), by decide⟩

theorem witness_FirstErrorIsKept :
    (Rejects (presenting [0xA0000000] 0) .illegalOp ∧ (presenting [0xA0000000] 0).err = false) ∧
    (Rejects (withError (presenting [0x50002000] 0)) .argRange ∧ (withError (presenting [0x50002000] 0)).err = true) ∧
    ((∃ t, step (withError State.reset) = .next t) ∧ (withError State.reset).err = true ∧
      ¬ ClearsStatus (withError State.reset)) := by
  refine ⟨⟨⟨by decide, by decide⟩, by decide⟩, ⟨⟨by decide, by decide⟩, by decide⟩, ⟨_, step_idle _ rfl rfl rfl⟩, by decide, ?_⟩
  rintro (h | h | h)
  · exact absurd h (by decide)
  · exact absurd h.1 (by decide)
  · exact absurd h.1 (by decide)

theorem witness_RejectedWordChangesStatusOnly :
    Rejects (presenting [0x1F000000] 0) .illegalSel ∧ (stepped (presenting [0x1F000000] 0)).now.rst = false :=
  ⟨⟨by decide, by decide⟩, by decide⟩

theorem witness_ErrTellsWhetherAWordWasRejected :
    (presenting [0xA0000000] 0).err = false ∧
    (∃ t, edges 1 (presenting [0xA0000000] 0) = .next t) ∧
    (∀ (k : Nat) (u : State), k < 1 → edges k (presenting [0xA0000000] 0) = .next u → ¬ ClearsStatus u) ∧
    ∃ t, exec (.rd .status) State.reset = .next t := by
  refine ⟨by decide, ⟨_, edges_one (step_rejects (e := .illegalOp) ⟨by decide, by decide⟩)⟩, fun k u hk hu => ?_,
    ⟨_, exec_rd _ _⟩⟩
  obtain rfl : k = 0 := by omega
  obtain rfl : presenting [0xA0000000] 0 = u := Host.Outcome.next.inj hu
  rintro (h | h | h)
  · exact absurd h (by decide)
  · exact absurd h.2 (by decide)
  · exact absurd h.2 (by decide)

theorem witness_OutOfRangeOperandRecordsItsError :
    32 ≤ (32 : Byte).toNat ∧ 32 < (33 : Byte).toNat ∧ State.reset.err = false ∧ (withError State.reset).err = true := by decide

theorem witness_ScheduleFollowsLoadsAtOnce : (loaded 0).busy = false := rfl

/-- The word, state and key hypotheses of the statements about MC, ARC, ATK, PN, SB and RND. -/
theorem witness_round_step_words :
    (0x40000001 : CmdWord).extractLsb' 28 4 = 0x4 ∧ (0x50002000 : CmdWord).extractLsb' 28 4 = 0x5 ∧
    (0x61000000 : CmdWord).extractLsb' 28 4 = 0x6 ∧ (0x70000100 : CmdWord).extractLsb' 28 4 = 0x7 ∧
    (0x80010000 : CmdWord).extractLsb' 28 4 = 0x8 ∧ (0x90002000 : CmdWord).extractLsb' 28 4 = 0x9 := by decide

theorem witness_round_step_states :
    (loaded 0x0123456789ABCDEF).state = unpack 0x0123456789ABCDEF ∧ (loaded 0x0123456789ABCDEF).keys = ks1 ∧
    State.reset.state = zeroBlock ∧ State.reset.keys = ⟨zeroBlock, zeroBlock, zeroBlock⟩ := by decide

theorem witness_McMixesState : ∀ (i : Nat) (h : i < 8), (loaded 0x1234567800000000).state[i + 8] = 0 := by decide

theorem witness_ArcInjectsRoundConstants :
    (31 : Byte).toNat < 32 ∧ 16 + 15 < 32 ∧ 24 + 7 < 32 ∧
    ((presenting [0x50002000] 0).now.cmd.extractLsb' 28 4 = 0x5 ∧ Rejects (presenting [0x50002000] 0) .argRange) :=
  ⟨by decide, by decide, by decide, by decide, ⟨by decide, by decide⟩⟩

theorem witness_AtkInjectsTweakey :
    (State.reset.key0 = zeroBlock ∧ State.reset.tweak = zeroBlock) ∧ (loaded 0x0123456789ABCDEF).state = ks1.key0 := by decide

theorem witness_PnMovesNibbles : Config.hardware.Wf ∧ (loaded 0x5555555555555555).state = Vector.replicate 16 5 := by
  unfold Config.Wf; decide

theorem witness_SbSubstitutesEveryNibble :
    (loaded 0x3789378937893789).state[0] = 3 ∧ (loaded 0x3789378937893789).state[13] = 7 ∧
    (loaded 0x3789378937893789).state[14] = 8 ∧ (loaded 0x3789378937893789).state[15] = 9 := by decide

theorem witness_RoundStepsAreBijectionsOnState : ∃ r : Byte, r.toNat < 32 ∧ Instr.arc 31 = .arc r := ⟨31, by decide, rfl⟩

theorem witness_RndAppliesOneRound :
    (31 : Byte).toNat < 32 ∧
    ((presenting [0x90002000] 0).now.cmd.extractLsb' 28 4 = 0x9 ∧ Rejects (presenting [0x90002000] 0) .argRange) :=
  ⟨by decide, by decide, ⟨by decide, by decide⟩⟩

theorem witness_FiveStepsEqualOneRound : (loaded 1).busy = false ∧ (31 : Byte).toNat < 32 := by decide

theorem witness_EncRunsOneRoundPerEdge :
    ((32 : Byte) ≠ 0 ∧ (32 : Byte).toNat ≤ 32) ∧ ((running 1 []).now.rst = false ∧ (running 1 []).busy = true) ∧
    ((running 7 [rstPort]).now.rst = true ∧ (running 7 [rstPort]).busy = true) ∧
    (AcceptsCommand (presenting [0x30000002] 0) (.enc 2) ∧ (2 : Byte) ≠ 0 ∧ 2 ≤ (2 : Byte).toNat ∧
      (∀ x ∈ (presenting [0x30000002] 0).inputs.take (2 + 1), x.rst = false)) :=
  ⟨by decide, by decide, by decide, accepts_presented (by decide) (by decide), by decide, by decide, by decide⟩

theorem witness_EncCompletesAsRoundsZeroToR :
    ((0x30000021 : CmdWord).extractLsb' 28 4 = 0x3 ∧ (0x30000020 : CmdWord).extractLsb' 28 4 = 0x3) ∧
    ((presenting [0x30000001, 0x40000000] 0).busy = false ∧ (1 : Byte).toNat ≤ 32 ∧
      (presenting [0x30000001, 0x40000000] 0).inputs = present 0x30000001 0 :: ([present 0x40000000 0] ++ []) ∧
      (present 0x30000001 0).cmd = 0x300000#24 ++ (1 : Byte) ∧ [present 0x40000000 0].length = (1 : Byte).toNat ∧
      ∀ y ∈ [present 0x40000000 0], y.rst = false) ∧
    ((presenting [0x30000021] 0).now.cmd.extractLsb' 28 4 = 0x3 ∧ Rejects (presenting [0x30000021] 0) .argRange) ∧
    ∃ t, exec (.enc 1) State.reset = .next t :=
  ⟨by decide, by decide, ⟨by decide, by decide, by decide⟩, _, exec_enc _ _ (by decide)⟩

/-- The run hypotheses of the same statement at R = 0 and at R = 32. -/
theorem witness_EncCompletesAsRoundsZeroToR_bounds :
    ((presenting [0x30000000, 0x40000000] 0).busy = false ∧ (0 : Byte).toNat ≤ 32 ∧
      (presenting [0x30000000, 0x40000000] 0).inputs = present 0x30000000 0 :: ([] ++ [present 0x40000000 0]) ∧
      (present 0x30000000 0).rst = false ∧ (present 0x30000000 0).cmdValid = true ∧
      (present 0x30000000 0).cmd = 0x300000#24 ++ (0 : Byte) ∧ ([] : List PortIn).length = (0 : Byte).toNat ∧
      ∀ y ∈ ([] : List PortIn), y.rst = false) ∧
    ((loaded 1).busy = false ∧ (32 : Byte).toNat ≤ 32 ∧
      ((loaded 1).setInputs (present 0x30000020 0 :: List.replicate 32 PortIn.idle)).inputs =
        present 0x30000020 0 :: (List.replicate 32 PortIn.idle ++ []) ∧
      (present 0x30000020 0).rst = false ∧ (present 0x30000020 0).cmdValid = true ∧
      (present 0x30000020 0).cmd = 0x300000#24 ++ (32 : Byte) ∧ (List.replicate 32 PortIn.idle).length = (32 : Byte).toNat ∧
      ∀ y ∈ List.replicate 32 PortIn.idle, y.rst = false) := by
  refine ⟨?_, ?_⟩ <;> decide

theorem witness_EncEqualsRndsInOrderAndIsNotResumable : State.reset.busy = false ∧ (32 : Byte).toNat ≤ 32 := by decide

theorem witness_RoundUsesItsSlotAndConstants : Config.hardware.Wf ∧ 31 < Config.hardware.maxRounds := by
  unfold Config.Wf; decide

theorem witness_EncryptionIsABijection :
    Config.hardware.Wf ∧ ∀ i j : Fin 16, Config.hardware.sbox[i] = Config.hardware.sbox[j] → i = j := by
  unfold Config.Wf; decide

theorem witness_CycleCounts :
    (32 : Byte).toNat ≤ 32 ∧ decode 0x30000021 = .error .argRange ∧
    (accepts (presenting [0x30000002] 0) = true ∧ (presenting [0x30000002] 0).now.cmd = 0x30000002 ∧
      2 < cycles Config.hardware 0x30000002 ∧ ∀ x ∈ (presenting [0x30000002] 0).inputs.take (2 + 1), x.rst = false) := by decide

theorem witness_AssemblerEmitsAcceptedWords :
    assembleLine Config.hardware (.command (.ld .tweak) 7) = some (0x13000000, 7) ∧
    assembleLine Config.hardware (.command (.enc 33) 0) = none := by decide

theorem witness_SetktThenEncryptReadsTheCiphertext :
    (withError State.reset).busy = false ∧ (32 : Byte).toNat ≤ 32 ∧ (0 : Byte).toNat ≤ 32 := by decide

end Sys2Proof.Tests
end

/-! PROOFS. The statements on the state as a whole: the legal states (O11), the writers of each register (O12) and ERR (O31).
First the layer they rest on: the fields of the operations, and what an edge and an accepted command can do. -/

namespace Sys2Proof.Machine

variable {s : State}

/-! ## The fields of the operations -/

@[simp] theorem nextEdge_state (s : State) : (nextEdge s).state = s.state := rfl
@[simp] theorem nextEdge_key0 (s : State) : (nextEdge s).key0 = s.key0 := rfl
@[simp] theorem nextEdge_key1 (s : State) : (nextEdge s).key1 = s.key1 := rfl
@[simp] theorem nextEdge_tweak (s : State) : (nextEdge s).tweak = s.tweak := rfl
@[simp] theorem nextEdge_dout (s : State) : (nextEdge s).dout = s.dout := rfl
@[simp] theorem nextEdge_err (s : State) : (nextEdge s).err = s.err := rfl
@[simp] theorem nextEdge_ecode (s : State) : (nextEdge s).ecode = s.ecode := rfl
@[simp] theorem nextEdge_busy (s : State) : (nextEdge s).busy = s.busy := rfl
@[simp] theorem nextEdge_rctr (s : State) : (nextEdge s).rctr = s.rctr := rfl
@[simp] theorem nextEdge_rlim (s : State) : (nextEdge s).rlim = s.rlim := rfl

/-- The accepting edge of an ENC writes BUSY, RCTR and RLIM at most (R151). -/
theorem startEnc_run (count : Byte) (s : State) : ∃ b r l, startEnc count s = s.setRun b r l := by
  by_cases h : count = 0#8
  · exact ⟨s.busy, s.rctr, s.rlim, by rw [h, startEnc_zero]; rfl⟩
  · exact ⟨_, _, _, startEnc_pos count s h⟩

/-! ## What an edge and an accepted command can do -/

/-- `step_cases` in the terms of the claims: reset, a round of a running ENC, a rejected word, an accepted command, or an
edge with nothing to accept (R86). -/
theorem edge_cases {t : State} (h : step s = .next t) :
    (s.now.rst = true ∧ t = nextEdge (resetCore s)) ∨
    (s.busy = true ∧ accepts s = false ∧ t = nextEdge (encRoundStep Config.hardware s)) ∨
    (∃ e, Rejects s e ∧ t = nextEdge (recordError e s)) ∨
    (∃ i u, AcceptsCommand s i ∧ exec i s = .next u ∧ t = nextEdge u) ∨
    (accepts s = false ∧ t = nextEdge s) := by
  rcases step_cases h with h | ⟨-, hb, ht⟩ | ⟨e, hr, hb, hv, hd, ht⟩ | ⟨i, u, hr, hb, hv, hd, hu, ht⟩ | ⟨-, -, hv, ht⟩
  · exact .inl h
  · exact .inr (.inl ⟨hb, by simp [accepts, cmdReady, hb], ht⟩)
  · exact .inr (.inr (.inl ⟨e, ⟨(accepts_eq s).2 ⟨hr, hb, hv⟩, hd⟩, ht⟩))
  · exact .inr (.inr (.inr (.inl ⟨i, u, ⟨(accepts_eq s).2 ⟨hr, hb, hv⟩, hd⟩, hu, ht⟩)))
  · exact .inr (.inr (.inr (.inr ⟨by simp [accepts, hv], ht⟩)))

/-- The commands that transform STATE by round steps (R129, R131). -/
inductive IsRoundStep : Instr → Prop
  | mc : IsRoundStep .mc
  | arc (r : Byte) : IsRoundStep (.arc r)
  | atk (r : Byte) : IsRoundStep (.atk r)
  | pn : IsRoundStep .pn
  | sb : IsRoundStep .sb
  | rnd (r : Byte) : IsRoundStep (.rnd r)

/-- `Writes s i u`: the command `i`, run in `s`, leaves `u`, which differs from `s` in the registers that R35 lets `i` write. -/
inductive Writes (s : State) : Instr → State → Prop
  | nop : Writes s .nop s
  | ld (r : BlockReg) : Writes s (.ld r) (s.setBlock r (dinBlock s))
  | rd (v : ReadSel) : Writes s (.rd v) (s.setDout (readSel Config.hardware v s))
  | enc (n : Byte) (hn : n.toNat ≤ 32) : Writes s (.enc n) (startEnc n s)
  | roundStep {i : Instr} (hi : IsRoundStep i) (b : Block) : Writes s i (s.setState b)
  | clrerr : Writes s .clrerr (clearError s)
  | srst : Writes s .srst (resetCore s)

/-- Everything a command with operands in range can write. -/
theorem exec_writes {i : Instr} {u : State} (hwf : i.wf Config.hardware = true) (h : exec i s = .next u) :
    Writes s i u := by
  have of_exec {v : State} (hv : exec i s = .next v) (hw : Writes s i v) : Writes s i u :=
    Host.Outcome.next.inj (hv.symm.trans h) ▸ hw
  cases i with
  | nop => exact of_exec (exec_nop s) .nop
  | ld r => exact of_exec (exec_ld r s) (.ld r)
  | rd v => exact of_exec (exec_rd v s) (.rd v)
  | enc n =>
    have hn : n.toNat ≤ 32 := of_decide_eq_true hwf
    exact of_exec (exec_enc n s hn) (.enc n hn)
  | mc => exact of_exec (exec_mc s) (.roundStep .mc _)
  | arc r => exact of_exec (exec_arc r s (of_decide_eq_true hwf)) (.roundStep (.arc r) _)
  | atk r => exact of_exec (exec_atk r s) (.roundStep (.atk r) _)
  | pn => exact of_exec (exec_pn s) (.roundStep .pn _)
  | sb => exact of_exec (exec_sb s) (.roundStep .sb _)
  | rnd r => exact of_exec (exec_rnd r s (of_decide_eq_true hwf)) (.roundStep (.rnd r) _)
  | clrerr => exact of_exec (exec_clrerr s) .clrerr
  | srst => exact of_exec (exec_srst s) .srst

/-- What the command of an accepted word can write: decode lets only operands in range through (R80). -/
theorem AcceptsCommand.writes {i : Instr} {u : State} (ha : AcceptsCommand s i) (h : exec i s = .next u) :
    Writes s i u :=
  exec_writes (decodeIn_wf ha.2) h

/-! ## Legal states -/

@[simp] theorem legal_nextEdge (s : State) : Legal (nextEdge s) ↔ Legal s := Iff.rfl

@[simp] theorem legal_setState (s : State) (b : Block) : Legal (s.setState b) ↔ Legal s := Iff.rfl

@[simp] theorem legal_setDout (s : State) (w : DataWord) : Legal (s.setDout w) ↔ Legal s := Iff.rfl

@[simp] theorem legal_setBlock (s : State) (r : BlockReg) (b : Block) : Legal (s.setBlock r b) ↔ Legal s := by
  cases r <;> rfl

theorem legal_resetCore (s : State) : Legal (resetCore s) := by
  simp [Legal, StatusLegal, RunLegal]

theorem Legal.clearError (hs : Legal s) : Legal (clearError s) :=
  ⟨⟨by simp [Machine.clearError], by simp [Machine.clearError]⟩, hs.2⟩

theorem Legal.recordError (hs : Legal s) (e : CmdError) : Legal (recordError e s) := by
  cases h : s.err with
  | true => rwa [recordError_later e s h]
  | false =>
    obtain ⟨hne, hle⟩ := errorCode_range e
    rw [recordError_first e s h]
    exact ⟨⟨by simpa using hne, hle⟩, hs.2⟩

theorem Legal.startEnc (hs : Legal s) {count : Byte} (hc : count.toNat ≤ 32) : Legal (startEnc count s) := by
  by_cases h : count = 0#8
  · rwa [h, startEnc_zero]
  · have hpos : (0#8).toNat < count.toNat := by bv_omega
    rw [startEnc_pos count s h]
    exact ⟨hs.1, hc, fun _ => hpos, fun hb => by cases hb⟩

/-- A round edge counts RCTR up without wrapping, and BUSY falls exactly when RCTR reaches RLIM (R151). -/
theorem Legal.encRoundStep (hs : Legal s) (hb : s.busy = true) (c : Config) : Legal (encRoundStep c s) := by
  obtain ⟨hstatus, hlim, hrun, -⟩ := hs
  have hlt := hrun hb
  have hmax : s.rlim.toNat ≤ 32 := hlim
  have hsucc : (s.rctr + 1#8).toNat = s.rctr.toNat + 1 := by bv_omega
  rw [encRoundStep_eq, hb]
  refine ⟨hstatus, hlim, fun hgo => ?_, fun hdone => by simpa using hdone⟩
  have hne : s.rctr + 1#8 ≠ s.rlim := by simpa using hgo
  have hne' : (s.rctr + 1#8).toNat ≠ s.rlim.toNat := fun he => hne (BitVec.eq_of_toNat_eq he)
  simp only [setRun_rctr, setRun_rlim]
  omega

/-- What a command with operands in range writes leaves a legal state legal. -/
theorem Legal.writes {i : Instr} {u : State} (hs : Legal s) (h : Writes s i u) : Legal u := by
  cases h with
  | nop => exact hs
  | ld r => exact (legal_setBlock s r _).2 hs
  | rd v => exact (legal_setDout s _).2 hs
  | enc n hn => exact hs.startEnc hn
  | roundStep hi b => exact (legal_setState s b).2 hs
  | clrerr => exact hs.clearError
  | srst => exact legal_resetCore s

/-- Settles O11: `Legal` by the cases of an edge, and for an accepted command by what it can write. -/
theorem everyEdgeKeepsLegalStates : Obligations.EveryEdgeKeepsLegalStates := by
  intro s t hs h
  rcases edge_cases h with ⟨-, rfl⟩ | ⟨hb, -, rfl⟩ | ⟨e, -, rfl⟩ | ⟨i, u, ha, hu, rfl⟩ | ⟨-, rfl⟩ <;>
    rw [legal_nextEdge]
  · exact legal_resetCore s
  · exact hs.encRoundStep hb _
  · exact hs.recordError e
  · exact hs.writes (ha.writes hu)
  · exact hs

/-! ## The writers of each register -/

/-- Settles O12: at each kind of edge the registers it may not write are framed, and those it may write name it. -/
theorem registersChangeOnlyByTheirWriters : Obligations.RegistersChangeOnlyByTheirWriters := by
  intro s t h
  rcases edge_cases h with ⟨hr, rfl⟩ | ⟨hb, -, rfl⟩ | ⟨e, he, rfl⟩ | ⟨i, u, ha, hu, rfl⟩ | ⟨-, rfl⟩
  · simp [hr, ClearsStatus]
  · simp [hb, encRoundStep_eq]
  · obtain ⟨er, ec, hrec⟩ := recordError_status e s
    simp [hrec, Exists.intro e he]
  · cases ha.writes hu with
    | nop => simp
    | ld r => cases r <;> simp [ha]
    | rd v => simp [show ∃ v, AcceptsCommand s (.rd v) from ⟨v, ha⟩]
    | enc n _ =>
      obtain ⟨b, r, l, hrun⟩ := startEnc_run n s
      simp [hrun, show ∃ n, AcceptsCommand s (.enc n) from ⟨n, ha⟩]
    | roundStep hi b =>
      cases hi with
      | mc | pn | sb => simp [ha]
      | arc r => simp [show ∃ r, AcceptsCommand s (.arc r) from ⟨r, ha⟩]
      | atk r => simp [show ∃ r, AcceptsCommand s (.atk r) from ⟨r, ha⟩]
      | rnd r => simp [show ∃ r, AcceptsCommand s (.rnd r) from ⟨r, ha⟩]
    | clrerr => simp [clearError, ClearsStatus, ha]
    | srst => simp [ClearsStatus, ha]
  · simp

/-! ## ERR -/

/-- A stretch of edges that ends begins with an edge that answers. -/
theorem step_of_edges_succ {n : Nat} {t : State} (h : edges (n + 1) s = .next t) :
    ∃ u, step s = .next u ∧ edges n u = .next t := by
  cases hs : step s with
  | next u => exact ⟨u, rfl, (edges_succ n hs).symm.trans h⟩
  | fault r => simp [edges, hs] at h
  | refused r => simp [edges, hs] at h

/-- Some word is rejected at one of the next `n` edges. -/
def RejectsWithin (n : Nat) (s : State) : Prop := ∃ k u e, k < n ∧ edges k s = .next u ∧ Rejects u e

theorem not_rejectsWithin_zero (s : State) : ¬ RejectsWithin 0 s := by
  rintro ⟨k, u, e, hk, -⟩
  exact absurd hk (Nat.not_lt_zero k)

/-- A rejection within `n + 1` edges is one at the first edge or one within the `n` edges after it. -/
theorem rejectsWithin_succ {t : State} (n : Nat) (h : step s = .next t) :
    RejectsWithin (n + 1) s ↔ (∃ e, Rejects s e) ∨ RejectsWithin n t := by
  constructor
  · rintro ⟨k, u, e, hk, hu, he⟩
    cases k with
    | zero => cases hu; exact .inl ⟨e, he⟩
    | succ k => exact .inr ⟨k, u, e, by omega, (edges_succ k h).symm.trans hu, he⟩
  · rintro (⟨e, he⟩ | ⟨k, u, e, hk, hu, he⟩)
    · exact ⟨0, s, e, by omega, edges_zero s, he⟩
    · exact ⟨k + 1, u, e, by omega, (edges_succ k h).trans hu, he⟩

/-- An accepted command other than CLRERR and SRST leaves ERR alone (R26). -/
theorem exec_keeps_err {i : Instr} {u : State} (ha : AcceptsCommand s i) (hc : ¬ ClearsStatus s)
    (h : exec i s = .next u) : u.err = s.err := by
  cases ha.writes h with
  | nop => rfl
  | ld r => simp
  | rd v => simp
  | enc n _ =>
    obtain ⟨b, r, l, hrun⟩ := startEnc_run n s
    simp [hrun]
  | roundStep hi b => simp
  | clrerr => exact absurd (.inr (.inl ha)) hc
  | srst => exact absurd (.inr (.inr ha)) hc

/-- After an edge that does not clear STATUS, ERR is 1 exactly when it was 1 or the edge rejected a word (R202). -/
theorem step_err_iff {t : State} (h : step s = .next t) (hc : ¬ ClearsStatus s) :
    t.err = true ↔ s.err = true ∨ ∃ e, Rejects s e := by
  have none_rejected (ha : accepts s = false) : ¬ ∃ e, Rejects s e := by
    rintro ⟨e, hacc, -⟩
    exact absurd hacc (by simp [ha])
  rcases edge_cases h with ⟨hr, -⟩ | ⟨-, hacc, rfl⟩ | ⟨e, he, rfl⟩ | ⟨i, u, ha, hu, rfl⟩ | ⟨hacc, rfl⟩
  · exact absurd (.inl hr) hc
  · simp [none_rejected hacc, encRoundStep_eq]
  · simp [Exists.intro e he]
  · have hnone : ¬ ∃ e, Rejects s e := fun ⟨e, he⟩ => by cases ha.2.symm.trans he.2
    simp [hnone, exec_keeps_err ha hc hu]
  · simp [none_rejected hacc]

/-- Over edges none of which clears STATUS, ERR ends at 1 exactly when it began at 1 or some word was rejected (R27). -/
theorem edges_err_iff (n : Nat) {t : State} (h : edges n s = .next t)
    (hc : ∀ (k : Nat) (u : State), k < n → edges k s = .next u → ¬ ClearsStatus u) :
    t.err = true ↔ s.err = true ∨ RejectsWithin n s := by
  induction n generalizing s with
  | zero => cases h; simp [not_rejectsWithin_zero]
  | succ n ih =>
    obtain ⟨u, hu, hun⟩ := step_of_edges_succ h
    have hrest : ∀ (k : Nat) (v : State), k < n → edges k u = .next v → ¬ ClearsStatus v :=
      fun k v hk hv => hc (k + 1) v (by omega) ((edges_succ k hu).trans hv)
    have hfirst : ¬ ClearsStatus s := hc 0 s (by omega) (edges_zero s)
    rw [ih hun hrest, step_err_iff hu hfirst, rejectsWithin_succ n hu, or_assoc]

/-! A command does not read STATUS, but for RD of STATUS. -/

theorem setBlock_setStatus (r : BlockReg) (b : Block) (er : Bool) (ec : BitVec 4) :
    (s.setStatus er ec).setBlock r b = (s.setBlock r b).setStatus er ec := by cases r <;> rfl

theorem startEnc_setStatus (count : Byte) (s : State) (er : Bool) (ec : BitVec 4) :
    startEnc count (s.setStatus er ec) = (startEnc count s).setStatus er ec := by
  by_cases h : count = 0#8
  · rw [h, startEnc_zero, startEnc_zero]
  · rw [startEnc_pos count _ h, startEnc_pos count s h]; rfl

theorem readSel_setStatus {v : ReadSel} (h : v ≠ .status) (c : Config) (s : State) (er : Bool) (ec : BitVec 4) :
    readSel c v (s.setStatus er ec) = readSel c v s := by
  cases v with
  | block r => cases r <;> rfl
  | tk j => rfl
  | dtk j => rfl
  | status => exact absurd rfl h

/-- A guarded command whose effect does not depend on STATUS answers the same but for STATUS. -/
theorem whenInRange_setStatus {ok : Bool} {e : CmdError} {t u : State} (h : whenInRange ok e s t = .next u) (er : Bool)
    (ec : BitVec 4) :
    ∃ er' ec', whenInRange ok e (s.setStatus er ec) (t.setStatus er ec) = .next (u.setStatus er' ec') := by
  cases ok with
  | true => exact ⟨er, ec, by rw [← Host.Outcome.next.inj h]; rfl⟩
  | false =>
    obtain ⟨_, _, hs⟩ := recordError_status e s
    obtain ⟨er', ec', hs'⟩ := recordError_status e (s.setStatus er ec)
    rw [whenInRange_false, hs] at h
    exact ⟨er', ec', by rw [← Host.Outcome.next.inj h, whenInRange_false, hs']; rfl⟩

/-- Whatever STATUS holds, a command other than RD of STATUS answers the same but for STATUS (R27). -/
theorem exec_setStatus {i : Instr} {t : State} (hi : i ≠ .rd .status) (h : exec i s = .next t) (er : Bool) (ec : BitVec 4) :
    ∃ er' ec', exec i (s.setStatus er ec) = .next (t.setStatus er' ec') := by
  have answers {u : State} {er' : Bool} {ec' : BitVec 4} (hu : exec i s = .next u)
      (hu' : exec i (s.setStatus er ec) = .next (u.setStatus er' ec')) :
      ∃ er' ec', exec i (s.setStatus er ec) = .next (t.setStatus er' ec') :=
    ⟨er', ec', Host.Outcome.next.inj (hu.symm.trans h) ▸ hu'⟩
  cases i with
  | nop => exact answers (exec_nop s) (exec_nop _)
  | ld r => exact answers (exec_ld r s) ((exec_ld r _).trans (congrArg _ (setBlock_setStatus r _ er ec)))
  | rd v =>
    have hv : v ≠ .status := fun hv => hi (congrArg _ hv)
    refine answers (er' := er) (ec' := ec) (exec_rd v s) ?_
    rw [exec_rd, readSel_setStatus hv]; rfl
  | enc n =>
    have hstart := whenInRange_setStatus h er ec
    rwa [← startEnc_setStatus] at hstart
  | mc => exact answers (exec_mc s) (exec_mc _)
  | arc r => exact whenInRange_setStatus h er ec
  | atk r => exact answers (exec_atk r s) (exec_atk r _)
  | pn => exact answers (exec_pn s) (exec_pn _)
  | sb => exact answers (exec_sb s) (exec_sb _)
  | rnd r => exact whenInRange_setStatus h er ec
  | clrerr => exact answers (er' := false) (ec' := 0) (exec_clrerr s) (exec_clrerr _)
  | srst => exact answers (er' := false) (ec' := 0) (exec_srst s) (exec_srst _)

/-- Settles O31, by induction on the edges, and command by command for what ERR does not change. -/
theorem errTellsWhetherAWordWasRejected : Obligations.ErrTellsWhetherAWordWasRejected := by
  refine ⟨fun n s t hs h hc => ?_, fun s => rfl, fun i s t e h => ?_⟩
  · simpa [hs, RejectsWithin] using edges_err_iff n h hc
  · change ∃ u, exec i (s.setStatus true e) = _ ∧ _
    by_cases hi : i = .rd .status
    · subst hi
      rw [exec_rd] at h
      rw [← Host.Outcome.next.inj h]
      exact ⟨_, exec_rd _ _, fun hne => absurd rfl hne, rfl⟩
    · obtain ⟨er, ec, hu⟩ := exec_setStatus hi h true e
      exact ⟨_, hu, fun _ => rfl, rfl⟩

end Sys2Proof.Machine

/-! PROOFS. The Blocks on the data ports and the commands LD and RD that move them: the select map (O18), the nibbles of a
packed Block (O22), and what LD and RD leave unchanged (O28). -/

namespace Sys2Proof

/-! ## The select map -/

/-- The word of an LD or an RD as R56 writes it, its low 24 bits 0, field by field. -/
theorem append_zero_eq_wordOf (op sel : BitVec 4) : op ++ sel ++ 0x000000#24 = wordOf op sel 0 0 0 := by
  revert op sel
  decide

/-- A word whose RSV, RIDX and RCNT are 0 is decoded from its OP and SEL alone. -/
theorem decodeIn_opSel (c : Config) (op : Op) (sel : BitVec 4) :
    decodeIn c (op.field ++ sel ++ 0x000000#24) = decodeOperands c op sel 0 0 := by
  rw [append_zero_eq_wordOf, decodeIn_defined c _ (op := op) (by simp) (by simp)]
  simp

/-- Settles O18: the word is decoded from OP and SEL alone, then row by row of the table of R56, for RD with the schedule DTK
absent and present. -/
theorem selectMap : Obligations.SelectMap := by
  refine fun c => ⟨fun sel => (decodeIn_opSel c .ld sel).trans ?_, fun sel => (decodeIn_opSel c .rd sel).trans ?_⟩
  · split <;> simp [decodeOperands, unlessNonzero, BlockReg.ofSel, *]
  · cases hd : c.dtkPresent <;> split <;> simp [decodeOperands, unlessNonzero, ReadSel.ofSel, Instr.wf, *]

end Sys2Proof

namespace Sys2Proof.Machine

/-! ## The nibbles of a packed Block -/

/-- Dropping the last nibble of a concatenation moves the other nibbles down by one place. -/
theorem extractLsb'_append_nibble {n : Nat} (hi : BitVec n) (lo : Nibble) (k : Nat) :
    (hi ++ lo).extractLsb' (k + 4) 4 = hi.extractLsb' k 4 := by
  rw [BitVec.extractLsb'_append_eq_of_le (by omega), Nat.add_sub_cancel]

/-- The last nibble of a concatenation is its four low bits: the library's lemma at the width of `pack`'s pieces, where `simp`
finds it. -/
theorem extractLsb'_append_last_nibble {n : Nat} (hi : BitVec n) (lo : Nibble) : (hi ++ lo).extractLsb' 0 4 = lo :=
  BitVec.extractLsb'_append_eq_right

/-- Nibble i of a Block is at bits [63-4i : 60-4i] of its packed word (R51). -/
theorem pack_nibble (b : Block) (i : Nat) (h : i < 16) : (pack b).extractLsb' (60 - 4 * i) 4 = b[i] := by
  interval_cases i <;> simp [pack, extractLsb'_append_nibble, extractLsb'_append_last_nibble]

/-- A data word is determined by its 16 nibbles. -/
theorem dataWord_ext_nibbles {v w : DataWord}
    (h : ∀ i < 16, v.extractLsb' (60 - 4 * i) 4 = w.extractLsb' (60 - 4 * i) 4) : v = w := by
  refine BitVec.eq_of_getLsbD_eq fun j hj => ?_
  have hbit := congrArg (fun x : Nibble => x.getLsbD (j % 4)) (h (15 - j / 4) (by omega))
  have hpos : 60 - 4 * (15 - j / 4) + j % 4 = j := by omega
  have hlt : j % 4 < 4 := by omega
  simpa [BitVec.getLsbD_extractLsb', hpos, hlt] using hbit

@[simp] theorem unpack_pack (b : Block) : unpack (pack b) = b := by
  ext i h : 1
  rw [unpack_get, pack_nibble b i h]

@[simp] theorem pack_unpack (w : DataWord) : pack (unpack w) = w :=
  dataWord_ext_nibbles fun i h => by rw [pack_nibble _ i h, unpack_get]

/-- Settles O22: by the nibbles of a packed Block, which determine the word and the Block. -/
theorem blocksCrossPortsNibbleZeroFirst : Obligations.BlocksCrossPortsNibbleZeroFirst :=
  ⟨pack_nibble, unpack_get, unpack_pack, pack_unpack, exec_ld .state, exec_rd (.block .state), by decide⟩

/-! ## LD and RD -/

/-- RD does not read DOUT (R55). -/
@[simp] theorem readSel_setDout (c : Config) (v : ReadSel) (s : State) (w : DataWord) :
    readSel c v (s.setDout w) = readSel c v s := by
  cases v with
  | block r => cases r <;> rfl
  | tk j => rfl
  | dtk j => rfl
  | status => rfl

/-- A write of a Block register changes Block registers only (R55). -/
theorem setBlock_frame (s : State) (r : BlockReg) (b : Block) :
    s.setBlock r b = { s with
      state := (s.setBlock r b).state, key0 := (s.setBlock r b).key0,
      key1 := (s.setBlock r b).key1, tweak := (s.setBlock r b).tweak } := by
  cases r <;> rfl

/-- LD does not change the data word it reads (R77). -/
@[simp] theorem dinBlock_setBlock (s : State) (r : BlockReg) (b : Block) : dinBlock (s.setBlock r b) = dinBlock s := by
  simp [dinBlock]

/-- Settles O28: neither command writes what it reads, so the second write is of the value that already stands. -/
theorem ldAndRdAreIdempotent : Obligations.LdAndRdAreIdempotent := by
  refine ⟨fun v s => ⟨_, exec_rd v s, rfl, ?_⟩, fun r s => ⟨_, exec_ld r s, fun q hq => ?_, setBlock_frame s r _, ?_⟩⟩
  · rw [exec_rd, readSel_setDout]; rfl
  · exact block_setBlock_other s hq _
  · rw [exec_ld, dinBlock_setBlock, setBlock_setBlock]

end Sys2Proof.Machine

/-! PROOFS. The encoding: decode and encode are inverse to each other (O13, O14), the opcodes and fields decode rejects (O15, O17,
O19, O20, O21), and the words the assembler emits (O50). -/

namespace Sys2Proof

/-! ## Decode and encode -/

/-- A command's word is decoded from the command's own fields. -/
theorem decodeIn_encode_fields (c : Config) (i : Instr) :
    decodeIn c (encode i) = decodeOperands c i.op i.selBits i.ridxBits i.rcntBits := by
  rw [decodeIn_defined c (encode i) (op := i.op) (by simp) (by simp)]
  simp

/-- The operand checks pass the fields of a command whose operands are in range (R80). -/
theorem decodeOperands_fields {c : Config} {i : Instr} (h : i.wf c = true) :
    decodeOperands c i.op i.selBits i.ridxBits i.rcntBits = .command i := by
  cases i with
  | nop | mc | pn | sb | clrerr | srst => rfl
  | ld r => cases r <;> rfl
  | rd v => simp [decodeOperands, Instr.op, Instr.selBits, Instr.ridxBits, Instr.rcntBits, unlessNonzero, h]
  | enc n => exact if_pos (of_decide_eq_true h)
  | arc r => exact if_pos (of_decide_eq_true h)
  | atk r => rfl
  | rnd r => exact if_pos (of_decide_eq_true h)

theorem decodeIn_encode {c : Config} {i : Instr} (h : i.wf c = true) : decodeIn c (encode i) = .command i :=
  (decodeIn_encode_fields c i).trans (decodeOperands_fields h)

/-- Settles O13: the word is decoded from the command's fields, which the operand checks pass. -/
theorem decodeOfEncodeIsTheCommand : Obligations.DecodeOfEncodeIsTheCommand :=
  fun _ _ => decodeIn_encode

/-- The operand checks pass only the fields of the command they yield: each unused field is checked to be 0 (R80). -/
theorem fields_of_decodeOperands {c : Config} {op : Op} {sel : BitVec 4} {ridx rcnt : Byte} {i : Instr}
    (h : decodeOperands c op sel ridx rcnt = .command i) :
    op = i.op ∧ sel = i.selBits ∧ ridx = i.ridxBits ∧ rcnt = i.rcntBits := by
  cases op <;> obtain ⟨hzero, h⟩ := unlessNonzero_command h <;>
    simp only [Bool.and_eq_true, beq_iff_eq] at hzero
  case ld =>
    split at h <;> cases h
    next r hr => exact ⟨rfl, (BlockReg.ofSel_eq_some sel r).1 hr, hzero⟩
  case rd =>
    split at h <;> [split at h; skip] <;> cases h
    next v hv _ => exact ⟨rfl, (ReadSel.ofSel_eq_some sel v).1 hv, hzero⟩
  case enc => split at h <;> cases h; exact ⟨rfl, hzero.1, hzero.2, rfl⟩
  case arc | rnd => split at h <;> cases h; exact ⟨rfl, hzero.1, rfl, hzero.2⟩
  case atk => cases h; exact ⟨rfl, hzero.1, rfl, hzero.2⟩
  all_goals cases h; exact ⟨rfl, hzero.1.1, hzero.1.2, hzero.2⟩

/-- A word that decodes to a command has a defined OP and RSV = 0, and passes the operand checks. -/
theorem decodeOperands_of_decodeIn {c : Config} {w : CmdWord} {i : Instr} (h : decodeIn c w = .command i) :
    ∃ op, Op.ofField (opField w) = some op ∧ rsvField w = 0 ∧
      decodeOperands c op (selField w) (ridxField w) (rcntField w) = .command i := by
  cases hop : Op.ofField (opField w) with
  | none => rw [decodeIn_reserved c w hop] at h; cases h
  | some op =>
    by_cases hr : rsvField w = 0
    · exact ⟨op, rfl, hr, (decodeIn_defined c w hop hr).symm.trans h⟩
    · rw [decodeIn_rsv c w hop hr] at h; cases h

theorem encode_of_decodeIn {c : Config} {w : CmdWord} {i : Instr} (h : decodeIn c w = .command i) : encode i = w := by
  obtain ⟨op, hop, hr, hd⟩ := decodeOperands_of_decodeIn h
  obtain ⟨rfl, hsel, hridx, hrcnt⟩ := fields_of_decodeOperands hd
  have hopf := (Op.ofField_eq_some (opField w) i.op).1 hop
  exact eq_of_fields (by simp [hopf]) (by simp [hsel]) (by simp [hr]) (by simp [hridx]) (by simp [hrcnt])

/-- Settles O14: the fields of the word are those of the command, and a word is determined by its fields. -/
theorem decodedWordIsTheCommandsWord : Obligations.DecodedWordIsTheCommandsWord :=
  fun _ _ _ h => ⟨encode_of_decodeIn h, decodeIn_wf h⟩

/-- A word decodes to a command exactly when it is the command's word and the operands are in range (R79, R80). -/
theorem decodeIn_eq_command_iff {c : Config} {w : CmdWord} {i : Instr} :
    decodeIn c w = .command i ↔ encode i = w ∧ i.wf c = true :=
  ⟨fun h => ⟨encode_of_decodeIn h, decodeIn_wf h⟩, fun ⟨hw, hwf⟩ => hw ▸ decodeIn_encode hwf⟩

/-- Settles O21: each is the word of a command whose operands are in range. -/
theorem sampleWordsDecode : Obligations.SampleWordsDecode := by
  refine ⟨?_, ?_, ?_, ?_, ?_, ?_, ?_, ?_, ?_, ?_, ?_, ?_, ?_⟩ <;> exact decodeIn_eq_command_iff.2 (by decide)

/-! ## The words decode rejects -/

/-- The OP values outside the opcode map (R81). -/
theorem Op.ofField_eq_none (x : BitVec 4) : Op.ofField x = none ↔ x = 0xA ∨ x = 0xB ∨ x = 0xC ∨ x = 0xD := by
  revert x; decide

theorem ofField_eq_none_iff_failsOp (w : CmdWord) : Op.ofField (opField w) = none ↔ Machine.FailsOp w :=
  Op.ofField_eq_none (opField w)

theorem ofField_of_not_failsOp {w : CmdWord} (h : ¬ Machine.FailsOp w) : ∃ op, Op.ofField (opField w) = some op :=
  Option.ne_none_iff_exists'.1 fun hnone => h ((ofField_eq_none_iff_failsOp w).1 hnone)

theorem unlessNonzero_ne_illegalOp {d : Decoded} (b : Bool) (h : d ≠ .error .illegalOp) :
    unlessNonzero b d ≠ .error .illegalOp := by
  cases b
  · simp [unlessNonzero]
  · exact h

/-- The operand checks never give ILLEGAL_OP (R204). -/
theorem decodeOperands_ne_illegalOp (c : Config) (op : Op) (sel : BitVec 4) (ridx rcnt : Byte) :
    decodeOperands c op sel ridx rcnt ≠ .error .illegalOp := by
  cases op <;> refine unlessNonzero_ne_illegalOp _ ?_
  case ld | enc | arc | rnd => split <;> simp
  case rd => split <;> [split; skip] <;> simp
  all_goals simp

/-- Settles O15: OP is outside the opcode map exactly for 0xA to 0xD, and no later check gives ILLEGAL_OP. -/
theorem reservedOpcodesAreIllegal : Obligations.ReservedOpcodesAreIllegal := by
  intro c w
  rw [← ofField_eq_none_iff_failsOp]
  refine ⟨fun h => ?_, decodeIn_reserved c w⟩
  by_contra hdef
  obtain ⟨op, hop⟩ := Option.ne_none_iff_exists'.1 hdef
  by_cases hr : rsvField w = 0
  · exact decodeOperands_ne_illegalOp _ _ _ _ _ ((decodeIn_defined c w hop hr).symm.trans h)
  · rw [decodeIn_rsv c w hop hr] at h; cases h

/-- Settles O17: RSV is checked right after OP. -/
theorem nonzeroReservedFieldIsRejected : Obligations.NonzeroReservedFieldIsRejected := by
  intro c w hop hr
  obtain ⟨op, hop⟩ := ofField_of_not_failsOp hop
  exact decodeIn_rsv c w hop hr

/-- A defined OP is rejected with RSVD_NONZERO when its operand checks do so, whatever RSV holds. -/
theorem decodeIn_rsvdNonzero {c : Config} {w : CmdWord} {op : Op} (hop : Op.ofField (opField w) = some op)
    (h : decodeOperands c op (selField w) (ridxField w) (rcntField w) = .error .rsvdNonzero) :
    decodeIn c w = .error .rsvdNonzero := by
  by_cases hr : rsvField w = 0
  · exact (decodeIn_defined c w hop hr).trans h
  · exact decodeIn_rsv c w hop hr

/-- Only ARC, ATK and RND use RIDX (R75). -/
theorem decodeOperands_ridx_unused (c : Config) {op : Op} (sel : BitVec 4) {ridx : Byte} (rcnt : Byte)
    (harc : op ≠ .arc) (hatk : op ≠ .atk) (hrnd : op ≠ .rnd) (h : ridx ≠ 0) :
    decodeOperands c op sel ridx rcnt = .error .rsvdNonzero := by
  have hne : ridx ≠ 0#8 := h
  cases op with
  | arc => exact absurd rfl harc
  | atk => exact absurd rfl hatk
  | rnd => exact absurd rfl hrnd
  | nop | ld | rd | enc | mc | pn | sb | clrerr | srst => simp [decodeOperands, unlessNonzero, hne]

/-- Only ENC uses RCNT (R76). -/
theorem decodeOperands_rcnt_unused (c : Config) {op : Op} (sel : BitVec 4) (ridx : Byte) {rcnt : Byte}
    (henc : op ≠ .enc) (h : rcnt ≠ 0) : decodeOperands c op sel ridx rcnt = .error .rsvdNonzero := by
  have hne : rcnt ≠ 0#8 := h
  cases op with
  | enc => exact absurd rfl henc
  | nop | ld | rd | mc | arc | atk | pn | sb | rnd | clrerr | srst => simp [decodeOperands, unlessNonzero, hne]

/-! The words of the commands that take a round index or a round count, bit by bit (R79). -/

theorem encode_arc (r : Byte) : encode (.arc r) = 0x5000#16 ++ r ++ 0x00#8 := by revert r; decide

theorem encode_rnd (r : Byte) : encode (.rnd r) = 0x9000#16 ++ r ++ 0x00#8 := by revert r; decide

theorem encode_atk (r : Byte) : encode (.atk r) = 0x6000#16 ++ r ++ 0x00#8 := by revert r; decide

theorem encode_enc (n : Byte) : encode (.enc n) = 0x300000#24 ++ n := by revert n; decide

/-- ATK uses the round index modulo 4 (R75, R108). -/
theorem slotOf_mod_four (r : Byte) : Machine.slotOf (BitVec.ofNat 8 (r.toNat % 4)).toNat = Machine.slotOf r.toNat := by
  have hlt : r.toNat % 4 < 2 ^ 8 := by omega
  refine Fin.ext ?_
  rw [Machine.slotOf_val, Machine.slotOf_val, BitVec.toNat_ofNat, Nat.mod_eq_of_lt hlt, Nat.mod_mod]

/-- Settles O19: the words are those of ARC, RND and ATK, decoded from their fields; in every other operation RIDX is unused. -/
theorem roundIndexField : Obligations.RoundIndexField := by
  refine ⟨fun c r => ?_, fun r s => ?_, fun c w hdef harc hatk hrnd hridx => ?_⟩
  · rw [← encode_arc, ← encode_rnd, ← encode_atk]
    exact ⟨decodeIn_encode_fields c (.arc r), decodeIn_encode_fields c (.rnd r), decodeIn_encode_fields c (.atk r)⟩
  · simp only [Machine.exec_atk, Machine.atk, slotOf_mod_four]
  · obtain ⟨op, hop⟩ := ofField_of_not_failsOp hdef
    have hfield : opField w = op.field := (Op.ofField_eq_some _ _).1 hop
    have other {o : Op} (ho : opField w ≠ o.field) : op ≠ o := fun he => ho (hfield.trans (congrArg Op.field he))
    exact decodeIn_rsvdNonzero hop
      (decodeOperands_ridx_unused c _ _ (other harc) (other hatk) (other hrnd) hridx)

/-- Settles O20: the words are those of ENC, decoded from their fields; in every other operation RCNT is unused. -/
theorem roundCountField : Obligations.RoundCountField := by
  refine ⟨fun c n => ?_, fun c => ?_, fun c w hdef henc hrcnt => ?_⟩
  · rw [← encode_enc]
    exact decodeIn_encode_fields c (.enc n)
  · exact decodeIn_encode (i := .enc 0) (by simp [Instr.wf])
  · obtain ⟨op, hop⟩ := ofField_of_not_failsOp hdef
    have hfield : opField w = op.field := (Op.ofField_eq_some _ _).1 hop
    have hne : op ≠ .enc := fun he => henc (hfield.trans (congrArg Op.field he))
    exact decodeIn_rsvdNonzero hop (decodeOperands_rcnt_unused c _ _ hne hrcnt)

end Sys2Proof

namespace Sys2Proof.Machine

/-! ## The assembler -/

/-- A command's line is assembled when its operands are in range (R88). -/
theorem assembleLine_command {c : Config} {i : Instr} (h : i.wf c = true) (v : DataWord) :
    assembleLine c (.command i v) = some (encode i, dataOf i v) := if_pos h

/-- A command's line is refused when an operand is out of range (R88). -/
theorem assembleLine_refuses {c : Config} {i : Instr} (h : ¬ i.wf c = true) (v : DataWord) :
    assembleLine c (.command i v) = none := if_neg h

theorem dataOf_ld (r : BlockReg) (v : DataWord) : dataOf (.ld r) v = v := rfl

theorem dataOf_other {i : Instr} (h : ∀ r, i ≠ .ld r) (v : DataWord) : dataOf i v = 0 := by
  cases i with
  | ld r => exact absurd rfl (h r)
  | nop | rd _ | enc _ | mc | arc _ | atk _ | pn | sb | rnd _ | clrerr | srst => rfl

/-- Settles O50: what is emitted is the command's own word, and only the commands with operands in range are decoded from a word. -/
theorem assemblerEmitsAcceptedWords : Obligations.AssemblerEmitsAcceptedWords := by
  refine ⟨fun c i v d w h => ?_, fun c i v h w hw => ?_, fun c w => rfl⟩
  · by_cases hwf : i.wf c = true
    · rw [assembleLine_command hwf] at h
      cases h
      refine ⟨decodeIn_encode hwf, ?_, fun hi => dataOf_other hi v⟩
      rintro ⟨r, rfl⟩
      exact dataOf_ld r v
    · rw [assembleLine_refuses hwf] at h; cases h
  · rw [assembleLine_command (decodeIn_wf hw)] at h; cases h

end Sys2Proof.Machine

/-! PROOFS. The edge and the command port: what an edge does (O3, O4, O32), what has no effect on it (O7, O9), a command held
during an ENC (O8), and a program driven through an ENC (O51). -/

namespace Sys2Proof.Machine

variable {s : State}

/-! ## What an edge does -/

/-- `nextEdge` drops the first port values and keeps every register. -/
theorem nextEdge_eq (s : State) : nextEdge s = { s with inputs := s.inputs.tail } := rfl

/-- An edge that accepts a command moves to what `exec` answers, and passes. -/
theorem step_command {i : Instr} {t : State} (ha : AcceptsCommand s i) (h : exec i s = .next t) :
    step s = .next (nextEdge t) := by
  rw [step_accepts ha, h]; rfl

/-- Settles O3: the events of an edge one by one; `exec` always answers a next state. -/
theorem edgeTakesFirstCase : Obligations.EdgeTakesFirstCase := by
  intro s
  refine ⟨step_reset s, step_encRound s, fun hr hb hv e hd => ?_, fun hr hb hv i hd => ?_, step_idle s⟩
  · exact step_rejects ⟨(accepts_eq s).2 ⟨hr, hb, hv⟩, hd⟩
  · obtain ⟨t, ht, -⟩ := exec_next i s
    exact ⟨t, ht, step_command ⟨(accepts_eq s).2 ⟨hr, hb, hv⟩, hd⟩ ht⟩

/-- Settles O4: `exec` answers a next state and leaves the port values to the edge. -/
theorem stepRunsDecodedCommand : Obligations.StepRunsDecodedCommand := by
  intro s i hr hb hv hd
  obtain ⟨t, ht, hin⟩ := exec_next i s
  refine ⟨t, ht, hin, ?_⟩
  rw [step_command ⟨(accepts_eq s).2 ⟨hr, hb, hv⟩, hd⟩ ht, nextEdge_eq, hin]

/-- A guarded command whose operand is out of range records its error (log entry 5). -/
theorem whenInRange_of_not {ok : Bool} (h : ¬ ok = true) (e : CmdError) (s t : State) :
    whenInRange ok e s t = .next (recordError e s) := by
  rw [Bool.eq_false_of_not_eq_true h, whenInRange_false]

/-- Settles O32: the range check of each command fails. -/
theorem outOfRangeOperandRecordsItsError : Obligations.OutOfRangeOperandRecordsItsError := by
  intro s r
  refine ⟨fun h => ?_, fun h => ?_, recordError_first .argRange s, recordError_later .argRange s⟩
  · have hout : ¬ r.toNat < Config.hardware.maxRounds := Nat.not_lt.2 h
    exact ⟨whenInRange_of_not (by simpa [Instr.wf] using hout) _ _ _,
      whenInRange_of_not (by simpa [Instr.wf] using hout) _ _ _⟩
  · have hout : ¬ r.toNat ≤ Config.hardware.maxRounds := Nat.not_le.2 h
    exact whenInRange_of_not (by simpa [Instr.wf] using hout) _ _ _

/-! ## The operations do not read the port values ahead -/

theorem resetCore_setInputs (s : State) (l : List PortIn) : resetCore (s.setInputs l) = (resetCore s).setInputs l := rfl

theorem encRoundStep_setInputs (c : Config) (s : State) (l : List PortIn) :
    encRoundStep c (s.setInputs l) = (encRoundStep c s).setInputs l := rfl

theorem recordError_setInputs (e : CmdError) (s : State) (l : List PortIn) :
    recordError e (s.setInputs l) = (recordError e s).setInputs l := by
  cases h : s.err with
  | true => rw [recordError_later e s h, recordError_later e (s.setInputs l) h]
  | false => rw [recordError_first e s h, recordError_first e (s.setInputs l) h]; rfl

theorem startEnc_setInputs (count : Byte) (s : State) (l : List PortIn) :
    startEnc count (s.setInputs l) = (startEnc count s).setInputs l := by
  by_cases h : count = 0#8
  · rw [h, startEnc_zero, startEnc_zero]
  · rw [startEnc_pos count _ h, startEnc_pos count s h]; rfl

theorem whenInRange_setInputs {ok : Bool} {e : CmdError} {t u : State} (h : whenInRange ok e s t = .next u)
    (l : List PortIn) : whenInRange ok e (s.setInputs l) (t.setInputs l) = .next (u.setInputs l) := by
  cases ok with
  | true => rw [← Host.Outcome.next.inj h, whenInRange_true, if_pos rfl]
  | false => rw [← Host.Outcome.next.inj h, whenInRange_false, if_neg Bool.false_ne_true, recordError_setInputs]

/-- A command other than LD answers the same whatever stands on the ports (R84). -/
theorem exec_setInputs {i : Instr} {t : State} (hi : ∀ r, i ≠ .ld r) (h : exec i s = .next t) (l : List PortIn) :
    exec i (s.setInputs l) = .next (t.setInputs l) := by
  have answers {u : State} (hu : exec i s = .next u) (hu' : exec i (s.setInputs l) = .next (u.setInputs l)) :
      exec i (s.setInputs l) = .next (t.setInputs l) :=
    Host.Outcome.next.inj (hu.symm.trans h) ▸ hu'
  cases i with
  | nop => exact answers (exec_nop s) (exec_nop _)
  | ld r => exact absurd rfl (hi r)
  | rd v =>
    refine answers (exec_rd v s) ?_
    rw [exec_rd, readSel_setInputs, setDout_setInputs]
  | enc n =>
    have hstart := whenInRange_setInputs h l
    rwa [← startEnc_setInputs] at hstart
  | mc => exact answers (exec_mc s) (exec_mc _)
  | arc r => exact whenInRange_setInputs h l
  | atk r => exact answers (exec_atk r s) (exec_atk r _)
  | pn => exact answers (exec_pn s) (exec_pn _)
  | sb => exact answers (exec_sb s) (exec_sb _)
  | rnd r => exact whenInRange_setInputs h l
  | clrerr => exact answers (exec_clrerr s) (exec_clrerr _)
  | srst => exact answers (exec_srst s) (exec_srst _)

/-! ## The edge with the port values `x`, event by event -/

section
variable {x : PortIn} (s) (l : List PortIn)

theorem step_cons_reset (hr : x.rst = true) : step (s.setInputs (x :: l)) = .next ((resetCore s).setInputs l) := by
  rw [step_reset (s.setInputs (x :: l)) hr, resetCore_setInputs, nextEdge_setInputs]

theorem step_cons_encRound (hr : x.rst = false) (hb : s.busy = true) :
    step (s.setInputs (x :: l)) = .next ((encRoundStep Config.hardware s).setInputs l) := by
  rw [step_encRound (s.setInputs (x :: l)) hr hb, encRoundStep_setInputs, nextEdge_setInputs]

theorem step_cons_idle (hr : x.rst = false) (hb : s.busy = false) (hv : x.cmdValid = false) :
    step (s.setInputs (x :: l)) = .next (s.setInputs l) := by
  rw [step_idle (s.setInputs (x :: l)) hr hb hv, nextEdge_setInputs]

theorem step_cons_rejects {e : CmdError} (hr : x.rst = false) (hb : s.busy = false) (hv : x.cmdValid = true)
    (hd : decode x.cmd = .error e) : step (s.setInputs (x :: l)) = .next ((recordError e s).setInputs l) := by
  have h : Rejects (s.setInputs (x :: l)) e := ⟨(accepts_eq _).2 ⟨hr, hb, hv⟩, hd⟩
  rw [step_rejects h, recordError_setInputs, nextEdge_setInputs]

/-- A command other than LD moves to what it answers before anything is presented. -/
theorem step_cons_command {i : Instr} {t : State} (hr : x.rst = false) (hb : s.busy = false) (hv : x.cmdValid = true)
    (hd : decode x.cmd = .command i) (hi : ∀ r, i ≠ .ld r) (ht : exec i s = .next t) :
    step (s.setInputs (x :: l)) = .next (t.setInputs l) := by
  have h : AcceptsCommand (s.setInputs (x :: l)) i := ⟨(accepts_eq _).2 ⟨hr, hb, hv⟩, hd⟩
  rw [step_command h (exec_setInputs hi ht _), nextEdge_setInputs]

end

/-! ## What has no effect on an edge -/

theorem cmdReady_eq_false (s : State) : cmdReady s = false ↔ s.now.rst = true ∨ s.busy = true := by
  cases hr : s.now.rst <;> cases hb : s.busy <;> simp [cmdReady, hr, hb]

/-- Settles O7: a reset edge and a round edge do not read the command port. -/
theorem unreadyCoreIgnoresCommandPort : Obligations.UnreadyCoreIgnoresCommandPort := by
  intro s x y rest hxy hready
  cases hr : x.rst with
  | true => rw [step_cons_reset s rest hr, step_cons_reset s rest (hxy ▸ hr)]
  | false =>
    have hb : s.busy = true := ((cmdReady_eq_false _).1 hready).resolve_left fun h => by cases h.symm.trans hr
    rw [step_cons_encRound s rest hr hb, step_cons_encRound s rest (hxy ▸ hr) hb]

/-- Port values that differ in `din` only make the same edge, unless it accepts an LD: an unready core ignores the command port,
and a rejection, a command other than LD and an idle edge do not read `din`. -/
theorem step_cons_eq_of_not_ld {x y : PortIn} {rest : List PortIn} (hrst : y.rst = x.rst) (hvalid : y.cmdValid = x.cmdValid)
    (hcmd : y.cmd = x.cmd) (hld : ∀ r, ¬ AcceptsCommand (s.setInputs (x :: rest)) (.ld r)) :
    step (s.setInputs (y :: rest)) = step (s.setInputs (x :: rest)) := by
  by_cases hready : cmdReady (s.setInputs (x :: rest)) = false
  · exact (unreadyCoreIgnoresCommandPort s x y rest hrst.symm hready).symm
  rw [cmdReady_eq_false, not_or, Bool.not_eq_true, Bool.not_eq_true] at hready
  obtain ⟨hr, hb⟩ : x.rst = false ∧ s.busy = false := hready
  cases hv : x.cmdValid with
  | false => rw [step_cons_idle s rest hr hb hv, step_cons_idle s rest (hrst.trans hr) hb (hvalid.trans hv)]
  | true =>
    cases hd : decode x.cmd with
    | error e =>
      rw [step_cons_rejects s rest hr hb hv hd,
        step_cons_rejects s rest (hrst.trans hr) hb (hvalid.trans hv) (hcmd ▸ hd)]
    | command i =>
      have hi (r : BlockReg) : i ≠ .ld r := fun he => hld r ⟨(accepts_eq _).2 ⟨hr, hb, hv⟩, he ▸ hd⟩
      obtain ⟨t, ht, -⟩ := exec_next i s
      rw [step_cons_command s rest hr hb hv hd hi ht,
        step_cons_command s rest (hrst.trans hr) hb (hvalid.trans hv) (hcmd ▸ hd) hi ht]

/-- Settles O9: the two edges differ in `din` only. -/
theorem dinIsReadByLdOnly : Obligations.DinIsReadByLdOnly :=
  fun _ _ _ _ => step_cons_eq_of_not_ld rfl rfl rfl

/-! ## A command held during an ENC -/

/-- In a legal state RCTR has reached RLIM exactly when no ENC runs (R151, R156). -/
theorem Legal.busy_iff (hs : Legal s) : s.busy = true ↔ s.rctr.toNat < s.rlim.toNat := by
  obtain ⟨-, -, hrun, hidle⟩ := hs
  refine ⟨hrun, fun hlt => ?_⟩
  by_contra hb
  have heq := hidle (Bool.eq_false_of_not_eq_true hb)
  rw [heq] at hlt
  exact absurd hlt (Nat.lt_irrefl _)

/-- In a legal state a round edge counts RCTR up without wrapping (R151). -/
theorem Legal.rctr_encRoundStep (hs : Legal s) (hb : s.busy = true) (c : Config) :
    (Machine.encRoundStep c s).rctr.toNat = s.rctr.toNat + 1 := by
  have hlt := hs.busy_iff.1 hb
  rw [encRoundStep_eq, setRun_rctr]
  bv_omega

@[simp] theorem encRoundStep_rlim (c : Config) (s : State) : (encRoundStep c s).rlim = s.rlim := rfl

/-- A round edge, like an idle one, moves on to the next port values. -/
theorem now_nextEdge_encRoundStep (c : Config) (s : State) : (nextEdge (encRoundStep c s)).now = (nextEdge s).now := rfl

/-- A command held over the remaining rounds of an ENC stands on the port when BUSY has fallen. -/
theorem held_command_stands_after_rounds (m : Nat) (hs : Legal s) (hm : s.rlim.toNat - s.rctr.toNat = m)
    (hv : s.now.cmdValid = true)
    (hhost : ∀ (k : Nat) (u : State), k < m → edges k s = .next u → u.now.rst = false ∧ HostHolds u) :
    ∃ t, edges m s = .next t ∧ t.busy = false ∧ t.now.cmdValid = true ∧ t.now.cmd = s.now.cmd ∧ t.now.din = s.now.din := by
  induction m generalizing s with
  | zero =>
    have hb : s.busy = false := by
      rw [← Bool.not_eq_true, hs.busy_iff]
      omega
    exact ⟨s, edges_zero s, hb, hv, rfl, rfl⟩
  | succ m ih =>
    have hb : s.busy = true := hs.busy_iff.2 (by omega)
    obtain ⟨hr, hhold⟩ := hhost 0 s (by omega) (edges_zero s)
    have hstep := step_encRound s hr hb
    have hheld := hhold hv ((cmdReady_eq_false s).2 (.inr hb))
    have hleft := hs.rctr_encRoundStep hb Config.hardware
    have hlegal := hs.encRoundStep hb Config.hardware
    rw [← now_nextEdge_encRoundStep Config.hardware] at hheld
    obtain ⟨hv', hcmd, hdin⟩ := hheld
    obtain ⟨t, ht, htb, htv, htc, htd⟩ := ih ((legal_nextEdge _).2 hlegal)
      (by simp only [nextEdge_rlim, nextEdge_rctr, hleft, encRoundStep_rlim]; omega) hv'
      fun k u hk hu => hhost (k + 1) u (by omega) ((edges_succ k hstep).trans hu)
    exact ⟨t, (edges_succ m hstep).trans ht, htb, htv, htc.trans hcmd, htd.trans hdin⟩

/-- Settles O8, by induction on the rounds left. -/
theorem heldCommandIsAcceptedAfterEnc : Obligations.HeldCommandIsAcceptedAfterEnc := by
  intro s hs _ hv hhost
  obtain ⟨t, ht, hb, htv, hcmd, hdin⟩ := held_command_stands_after_rounds _ hs rfl hv hhost
  exact ⟨t, ht, hb, htv, hcmd, hdin, fun hr => (accepts_eq t).2 ⟨hr, hb, htv⟩⟩

/-! ## The rounds of an ENC -/

/-- The state `k` rounds into ENC n, started in `s` (R151). -/
def afterRounds (n : Byte) (s : State) (k : Nat) : State :=
  (s.setState (encrypt Config.hardware s.keys s.state k)).setRun (decide (k < n.toNat)) (BitVec.ofNat 8 k) n

/-- The accepting edge leaves a core that has done no round yet. -/
theorem startEnc_eq_afterRounds {n : Byte} (h : n ≠ 0#8) (s : State) : startEnc n s = afterRounds n s 0 := by
  have hpos : 0 < n.toNat := by bv_omega
  rw [startEnc_pos n s h, afterRounds, decide_eq_true hpos]
  rfl

/-- A round edge goes from `k` rounds to `k + 1`. -/
theorem encRoundStep_afterRounds {n : Byte} {k : Nat} (h : k < n.toNat) (s : State) :
    encRoundStep Config.hardware (afterRounds n s k) = afterRounds n s (k + 1) := by
  have hk : k % 2 ^ 8 = k := Nat.mod_eq_of_lt (by omega)
  have hcount : BitVec.ofNat 8 k + 1#8 = BitVec.ofNat 8 (k + 1) := BitVec.ofNat_add_ofNat ..
  have hgo : (BitVec.ofNat 8 (k + 1) != n) = decide (k + 1 < n.toNat) := by
    rw [Bool.eq_iff_iff, bne_iff_ne, decide_eq_true_iff, ne_eq, ← BitVec.toNat_inj, BitVec.toNat_ofNat]
    omega
  rw [encRoundStep_eq]
  simp only [afterRounds, setRun_state, setRun_keys, setRun_busy, setRun_rctr, setRun_rlim, setState_state, setState_keys,
    BitVec.toNat_ofNat, hk, hcount, hgo, decide_eq_true h, Bool.true_and, encrypt_succ]
  rfl

/-- Whatever the host presents, edges without a reset run one round each (R151). -/
theorem edges_afterRounds {n : Byte} (s : State) (rest xs : List PortIn) (k : Nat) (hk : k + xs.length ≤ n.toNat)
    (hr : ∀ x ∈ xs, x.rst = false) :
    edges xs.length ((afterRounds n s k).setInputs (xs ++ rest)) =
      .next ((afterRounds n s (k + xs.length)).setInputs rest) := by
  induction xs generalizing k with
  | nil => rfl
  | cons x xs ih =>
    rw [List.length_cons] at hk
    have hlt : k < n.toNat := by omega
    have hstep : step ((afterRounds n s k).setInputs (x :: (xs ++ rest))) =
        .next ((afterRounds n s (k + 1)).setInputs (xs ++ rest)) := by
      rw [step_cons_encRound _ _ (hr x List.mem_cons_self) (decide_eq_true hlt), encRoundStep_afterRounds hlt]
    rw [List.cons_append, List.length_cons, edges_succ _ hstep,
      ih (k + 1) (by omega) fun y hy => hr y (List.mem_cons_of_mem x hy), Nat.add_right_comm, Nat.add_assoc]

/-- From the edge that accepts it, ENC n takes n + 1 edges without a reset, whatever the host presents meanwhile, and leaves rounds
0 to n-1 in STATE (R150, R151, R156). -/
theorem edges_enc {n : Byte} {x : PortIn} {xs : List PortIn} (s : State) (rest : List PortIn) (hb : s.busy = false)
    (hn : n.toNat ≤ 32) (hrx : x.rst = false) (hv : x.cmdValid = true) (hd : decode x.cmd = .command (.enc n))
    (hlen : xs.length = n.toNat) (hr : ∀ y ∈ xs, y.rst = false) :
    edges (n.toNat + 1) (s.setInputs (x :: (xs ++ rest))) =
      .next (((s.setState (encrypt Config.hardware s.keys s.state n.toNat)).setRun false
        (if n = 0#8 then s.rctr else n) (if n = 0#8 then s.rlim else n)).setInputs rest) := by
  rw [edges_succ _ (step_cons_command s (xs ++ rest) hrx hb hv hd (by simp) (exec_enc n s hn))]
  by_cases h : n = 0#8
  · obtain rfl : xs = [] := List.eq_nil_of_length_eq_zero (hlen.trans (by rw [h]; rfl))
    rw [if_pos h, if_pos h, ← hb, h, startEnc_zero]
    rfl
  · rw [if_neg h, if_neg h, startEnc_eq_afterRounds h, ← hlen, edges_afterRounds s rest xs 0 (by omega) hr, hlen, Nat.zero_add,
      afterRounds, decide_eq_false (Nat.lt_irrefl _), BitVec.ofNat_toNat, BitVec.setWidth_eq]

/-! ## Driven programs -/

/-- The host presents a word, waits while the core is busy with it, and goes on (R179). -/
theorem drive_cons (c : Config) (w : CmdWord) (d : DataWord) (l : List (CmdWord × DataWord)) :
    drive c ((w, d) :: l) = present w d :: (List.replicate (busyCycles c w) PortIn.idle ++ drive c l) := rfl

/-- ENC n keeps the core busy for n edges (R260). -/
theorem busyCycles_encode_enc {c : Config} {n : Byte} (h : (Instr.enc n).wf c = true) :
    busyCycles c (encode (.enc n)) = n.toNat := by
  simp [busyCycles, decodeIn_encode h]

/-- Every other command takes its accepting edge only (R260). -/
theorem busyCycles_encode_other {c : Config} {i : Instr} (h : i.wf c = true) (hi : ∀ n, i ≠ .enc n) :
    busyCycles c (encode i) = 0 := by
  cases i with
  | enc n => exact absurd rfl (hi n)
  | nop | ld _ | rd _ | mc | arc _ | atk _ | pn | sb | rnd _ | clrerr | srst => simp [busyCycles, decodeIn_encode h]

/-- A driven LD takes one edge. -/
theorem edges_drive_ld (s : State) (hb : s.busy = false) (r : BlockReg) (d : DataWord) (l : List (CmdWord × DataWord))
    (rest : List PortIn) (m : Nat) :
    edges (m + 1) (s.setInputs (drive Config.hardware ((encode (.ld r), d) :: l) ++ rest)) =
      edges m ((s.setBlock r (unpack d)).setInputs (drive Config.hardware l ++ rest)) := by
  rw [drive_cons, busyCycles_encode_other rfl (by simp)]
  refine edges_succ m ((step_present hb (decodeIn_encode rfl) (exec_ld r _)).trans ?_)
  rw [setBlock_setInputs]
  rfl

/-- A driven RD takes one edge. -/
theorem edges_drive_rd (s : State) (hb : s.busy = false) (v : ReadSel) (d : DataWord) (l : List (CmdWord × DataWord))
    (rest : List PortIn) (m : Nat) :
    edges (m + 1) (s.setInputs (drive Config.hardware ((encode (.rd v), d) :: l) ++ rest)) =
      edges m ((s.setDout (readSel Config.hardware v s)).setInputs (drive Config.hardware l ++ rest)) := by
  have hwf : (Instr.rd v).wf Config.hardware = true := by cases v <;> rfl
  rw [drive_cons, busyCycles_encode_other hwf (by simp)]
  exact edges_succ m (step_cons_command s _ rfl hb rfl (decodeIn_encode hwf) (by simp) (exec_rd v s))

/-- A driven ENC n takes n + 1 edges. -/
theorem edges_drive_enc (s : State) (hb : s.busy = false) {n : Byte} (hn : n.toNat ≤ 32) (d : DataWord)
    (l : List (CmdWord × DataWord)) (rest : List PortIn) (m : Nat) :
    ∃ a b, edges (n.toNat + 1 + m) (s.setInputs (drive Config.hardware ((encode (.enc n), d) :: l) ++ rest)) =
      edges m (((s.setState (encrypt Config.hardware s.keys s.state n.toNat)).setRun false a b).setInputs
        (drive Config.hardware l ++ rest)) := by
  have hwf : (Instr.enc n).wf Config.hardware = true := decide_eq_true hn
  rw [drive_cons, busyCycles_encode_enc hwf, List.cons_append, List.append_assoc]
  exact ⟨_, _, edges_add m (edges_enc s _ hb hn rfl rfl (decodeIn_encode hwf) List.length_replicate
    fun y hy => by rw [List.eq_of_mem_replicate hy]; rfl)⟩

/-- The words of SETKT (R89). -/
def setktWords (k0 k1 t : DataWord) : List (CmdWord × DataWord) :=
  [(encode (.ld .key0), k0), (encode (.ld .key1), k1), (encode (.ld .tweak), t)]

/-- The words of ENCRYPT (R89). -/
def encryptWords (p : DataWord) (n : Byte) : List (CmdWord × DataWord) :=
  [(encode (.ld .state), p), (encode (.enc n), 0), (encode (.rd (.block .state)), 0)]

theorem assemble_cons_command {c : Config} {i : Instr} {v : DataWord} {lines : List AsmLine} {l : List (CmdWord × DataWord)}
    (h : i.wf c = true) (hl : assemble c lines = some l) :
    assemble c (.command i v :: lines) = some ((encode i, dataOf i v) :: l) := by
  simp only [assemble, assembleLine_command h, hl]

theorem assemble_setkt_encrypt {c : Config} {n : Byte} (h : (Instr.enc n).wf c = true) (k0 k1 t p : DataWord) :
    assemble c (expand (.setkt k0 k1 t) ++ expand (.encrypt p n)) = some (setktWords k0 k1 t ++ encryptWords p n) :=
  assemble_cons_command rfl <| assemble_cons_command rfl <| assemble_cons_command rfl <| assemble_cons_command rfl <|
    assemble_cons_command h <| assemble_cons_command rfl rfl

/-- SETKT loads the keys and the tweak in three edges (R89). -/
theorem edges_setkt (s : State) (hb : s.busy = false) (k0 k1 t : DataWord) (l : List (CmdWord × DataWord))
    (rest : List PortIn) (m : Nat) :
    edges (m + 3) (s.setInputs (drive Config.hardware (setktWords k0 k1 t ++ l) ++ rest)) =
      edges m ((((s.setBlock .key0 (unpack k0)).setBlock .key1 (unpack k1)).setBlock .tweak (unpack t)).setInputs
        (drive Config.hardware l ++ rest)) := by
  simp only [setktWords, List.cons_append, List.nil_append]
  rw [edges_drive_ld s hb, edges_drive_ld _ (by rwa [setBlock_busy]), edges_drive_ld _ (by rwa [setBlock_busy, setBlock_busy])]

/-- ENCRYPT takes n + 3 edges and leaves the ciphertext in STATE and DOUT (R89, R150). -/
theorem edges_encrypt (s : State) (hb : s.busy = false) (p : DataWord) {n : Byte} (hn : n.toNat ≤ 32) (rest : List PortIn) :
    ∃ a b, edges (n.toNat + 3) (s.setInputs (drive Config.hardware (encryptWords p n) ++ rest)) =
      .next ((((s.setState (encrypt Config.hardware s.keys (unpack p) n.toNat)).setRun false a b).setDout
        (pack (encrypt Config.hardware s.keys (unpack p) n.toNat))).setInputs rest) := by
  obtain ⟨a, b, henc⟩ := edges_drive_enc (s.setBlock .state (unpack p)) (by rwa [setBlock_busy]) hn 0
    [(encode (.rd (.block .state)), 0)] rest 1
  refine ⟨a, b, ?_⟩
  rw [encryptWords, show n.toNat + 3 = n.toNat + 1 + 1 + 1 from rfl, edges_drive_ld s hb, henc, edges_drive_rd _ rfl,
    edges_zero]
  rfl

/-- Settles O51: SETKT loads what ENCRYPT encrypts under. -/
theorem setktThenEncryptReadsTheCiphertext : Obligations.SetktThenEncryptReadsTheCiphertext := by
  intro s k0 k1 t p n rest hb hn
  obtain ⟨a, b, hu⟩ := edges_encrypt
    (((s.setBlock .key0 (unpack k0)).setBlock .key1 (unpack k1)).setBlock .tweak (unpack t))
    (by rwa [setBlock_busy, setBlock_busy, setBlock_busy]) p hn rest
  rw [← edges_setkt s hb k0 k1 t (encryptWords p n) rest] at hu
  refine ⟨_, _, assemble_setkt_encrypt (decide_eq_true hn) k0 k1 t p, hu, ?_⟩
  simp [State.keys]

end Sys2Proof.Machine

/-! PROOFS. The tweakey schedule: its nibbles (O33), that it follows a load at the next edge (O34), and ATK, which XORs one of its
slots into STATE (O38). -/

namespace Sys2Proof

/-! ## The words of the commands that take a round index -/

/-- The mask of R79 for ARC, ATK and RND clears RIDX and keeps the other fields. -/
theorem and_roundIndexMask (w : CmdWord) :
    w &&& 0xFFFF00FF = wordOf (opField w) (selField w) (rsvField w) 0 (rcntField w) := by
  have hmask : (0xFFFF00FF : CmdWord) = wordOf (.allOnes 4) (.allOnes 4) (.allOnes 8) 0 (.allOnes 8) := by decide
  conv_lhs => rw [← wordOf_fields w, hmask, wordOf_and]
  simp only [BitVec.and_allOnes, BitVec.ofNat_eq_ofNat, BitVec.and_zero]

/-- An operation whose unused fields are SEL and RCNT accepts the words of its row in R79 and rejects every other word of its OP
with RSVD_NONZERO; `d` is what the index check answers. -/
theorem decodeIn_roundIndexWord {c : Config} {w : CmdWord} {op : Op} {d : Decoded} (hop : opField w = op.field)
    (hd : decodeOperands c op (selField w) (ridxField w) (rcntField w) =
      unlessNonzero (selField w == 0 && rcntField w == 0) d) :
    decodeIn c w = if w &&& 0xFFFF00FF = wordOf op.field 0 0 0 0 then d else .error .rsvdNonzero := by
  have hdef : Op.ofField (opField w) = some op := (Op.ofField_eq_some _ _).2 hop
  by_cases hr : rsvField w = 0
  · rw [decodeIn_defined c w hdef hr, hd, and_roundIndexMask, hop, hr]
    simp [wordOf_inj, unlessNonzero]
  · rw [decodeIn_rsv c w hdef hr, and_roundIndexMask]
    simp only [wordOf_inj, hr, false_and, and_false, if_false]

end Sys2Proof

namespace Sys2Proof.Machine

/-! ## The nibbles of the schedule -/

/-- Settles O33: each slot of TK nibble by nibble, and the rows of `mix` on each of them. -/
theorem tweakeySchedule : Obligations.TweakeySchedule := by
  refine ⟨fun c k i h => ⟨tk_get_0 c k i h, tk_get_1 c k i h, tk_get_2 c k i h, tk_get_3 c k i h⟩,
    fun c k j i h => ⟨mix_get_row0 _ i h, mix_get_row1 _ i h, ?_, ?_⟩, ?_⟩
  · exact mix_get_low _ (i + 8) (by omega) (by omega)
  · exact mix_get_low _ (i + 12) (by omega) (by omega)
  · rintro k rfl
    decide

/-! ## The schedule after a load -/

/-- An LD and an RD at two edges in a row: the RD reads what the LD has written (R257). -/
theorem edges_ld_rd (s : State) (hb : s.busy = false) (r : BlockReg) (v : ReadSel) (d d' : DataWord) (rest : List PortIn) :
    edges 2 (s.setInputs (present (encode (.ld r)) d :: present (encode (.rd v)) d' :: rest)) =
      .next (((s.setBlock r (unpack d)).setDout (readSel Config.hardware v (s.setBlock r (unpack d)))).setInputs rest) := by
  have hwf : (Instr.rd v).wf Config.hardware = true := by cases v <;> rfl
  have hdrive : drive Config.hardware [(encode (.ld r), d), (encode (.rd v), d')] ++ rest =
      present (encode (.ld r)) d :: present (encode (.rd v)) d' :: rest := by
    rw [drive_cons, busyCycles_encode_other rfl (by simp), drive_cons, busyCycles_encode_other hwf (by simp)]
    rfl
  rw [← hdrive, edges_drive_ld s hb, edges_drive_rd _ (by rwa [setBlock_busy]), edges_zero]
  rfl

theorem keys_setBlock_key0 (s : State) (b : Block) : (s.setBlock .key0 b).keys = ⟨b, s.key1, s.tweak⟩ := rfl

theorem keys_setBlock_key1 (s : State) (b : Block) : (s.setBlock .key1 b).keys = ⟨s.key0, b, s.tweak⟩ := rfl

theorem keys_setBlock_tweak (s : State) (b : Block) : (s.setBlock .tweak b).keys = ⟨s.key0, s.key1, b⟩ := rfl

/-- An RD of a slot of TK right after an LD sees the schedule of the loaded registers (R109). -/
theorem edges_ld_rd_tk (s : State) (hb : s.busy = false) (r : BlockReg) (j : Fin 4) (d d' : DataWord) (rest : List PortIn) :
    ∃ t, edges 2 (s.setInputs (present (encode (.ld r)) d :: present (encode (.rd (.tk j))) d' :: rest)) = .next t ∧
      t.dout = pack (tk Config.hardware (s.setBlock r (unpack d)).keys j) := by
  refine ⟨_, edges_ld_rd s hb r (.tk j) d d' rest, ?_⟩
  rw [setInputs_dout, setDout_dout, readSel]

/-- Settles O34: the LD writes one of the registers the schedule is a function of, and the RD of a slot follows it. -/
theorem scheduleFollowsLoadsAtOnce : Obligations.ScheduleFollowsLoadsAtOnce := by
  intro s d d' j rest hb
  rw [← keys_setBlock_key0, ← keys_setBlock_key1, ← keys_setBlock_tweak]
  exact ⟨edges_ld_rd_tk s hb .key0 j d d' rest, edges_ld_rd_tk s hb .key1 j d d' rest,
    edges_ld_rd_tk s hb .tweak j d d' rest⟩

/-! ## Exclusive-or of Blocks and ATK -/

theorem xorBlock_zero (a : Block) : xorBlock a zeroBlock = a := by
  ext i h : 1
  simp

theorem xorBlock_cancel_right (a b : Block) : xorBlock (xorBlock a b) b = a := by
  ext i h : 1
  simp

theorem xorBlock_cancel_left (a b : Block) : xorBlock a (xorBlock a b) = b := by
  ext i h : 1
  simp

@[simp] theorem setState_self (s : State) : s.setState s.state = s := rfl

@[simp] theorem setState_setState (s : State) (a b : Block) : (s.setState a).setState b = s.setState b := rfl

/-- Subkey injection is its own inverse (R108). -/
theorem atk_atk (c : Config) (k : Keys) (b : Block) (r : Nat) : atk c k (atk c k b r) r = b :=
  xorBlock_cancel_right b _

/-- ATK 0 injects `KEY0 ^ TWEAK` (R106, R108). -/
theorem exec_atk_zero (s : State) :
    exec (.atk 0) s = .next (s.setState (xorBlock s.state (xorBlock s.key0 s.tweak))) := rfl

/-- ATK 0 takes a STATE equal to KEY0 to TWEAK (R108). -/
theorem exec_atk_zero_of_state_eq_key0 {s : State} (h : s.state = s.key0) :
    exec (.atk 0) s = .next (s.setState s.tweak) := by
  rw [exec_atk_zero, h, xorBlock_cancel_left]

/-- ATK r twice restores the state. -/
theorem exec_atk_atk (r : Byte) (s : State) :
    exec (.atk r) (s.setState (atk Config.hardware s.keys s.state r.toNat)) = .next s := by
  rw [exec_atk, setState_keys, setState_state, atk_atk, setState_setState, setState_self]

/-- Settles O38: the words of ATK by their fields, and the exclusive-or of Blocks, which cancels. -/
theorem atkInjectsTweakey : Obligations.AtkInjectsTweakey := by
  refine ⟨fun w hop => ?_, fun r s => ?_, fun s hkey htweak => ?_, fun s => exec_atk_zero_of_state_eq_key0,
    fun s hstate hkeys => ?_⟩
  · exact decodeIn_roundIndexWord (op := .atk) hop rfl
  · exact ⟨slotOf r.toNat, _, slotOf_val _, exec_atk r s, atk_get _ _ _ _, exec_atk_atk r s⟩
  · rw [exec_atk_zero, hkey, htweak, xorBlock_zero, xorBlock_zero, setState_self]
  · have hkey0 : s.key0 = unpack 0x0123456789ABCDEF := congrArg Keys.key0 hkeys
    have htweak : s.tweak = unpack 0x0F1E2D3C4B5A6978 := congrArg Keys.tweak hkeys
    constructor
    · rw [← htweak]
      exact exec_atk_zero_of_state_eq_key0 (hstate.trans hkey0.symm)
    · have hatk : atk Config.hardware s.keys s.state (5 : Byte).toNat = unpack 0xF0E1D2C3B4A59687 := by
        rw [hstate, hkeys]
        decide
      rw [exec_atk, hatk]
      rfl

end Sys2Proof.Machine

/-! PROOFS. The round steps: MC (O35), `mix` (O36), ARC (O37), PN (O39) and SB (O40), each of them a bijection on STATE (O41); RND
applies the five in order (O42), and is the same as the five commands one after another (O43). -/

namespace Sys2Proof

/-- An operation without operands accepts the one word of its row in R79 and rejects every other word of its OP with
RSVD_NONZERO. -/
theorem decodeIn_plainWord {c : Config} {w : CmdWord} {op : Op} {d : Decoded} (hop : opField w = op.field)
    (hd : decodeOperands c op (selField w) (ridxField w) (rcntField w) =
      unlessNonzero (selField w == 0 && ridxField w == 0 && rcntField w == 0) d) :
    decodeIn c w = if w = wordOf op.field 0 0 0 0 then d else .error .rsvdNonzero := by
  have hdef : Op.ofField (opField w) = some op := (Op.ofField_eq_some _ _).2 hop
  have hword : w = wordOf op.field 0 0 0 0 ↔
      selField w = 0 ∧ rsvField w = 0 ∧ ridxField w = 0 ∧ rcntField w = 0 := by
    conv_lhs => rw [← wordOf_fields w, hop, wordOf_inj]
    simp
  by_cases hr : rsvField w = 0
  · rw [decodeIn_defined c w hdef hr, hd, if_congr hword rfl rfl]
    simp [hr, unlessNonzero, and_assoc]
  · have hother : ¬ w = wordOf op.field 0 0 0 0 := fun h => by
      obtain ⟨-, hrsv, -, -⟩ := hword.1 h
      exact hr hrsv
    rw [decodeIn_rsv c w hdef hr, if_neg hother]

end Sys2Proof

namespace Sys2Proof.Machine

/-! ## Commands that apply a function to STATE -/

/-- A rejected word leaves all but STATUS as it was (R203). -/
theorem step_rejects_onlyStatusChanged {s : State} {e : CmdError} (h : Rejects s e) :
    ∃ t, step s = .next t ∧ t.state = s.state ∧ OnlyStatusChanged s t := by
  obtain ⟨er, ec, hrec⟩ := recordError_status e s
  exact ⟨nextEdge (s.setStatus er ec), by rw [step_rejects h, hrec], rfl, rfl⟩

/-- The command `i` applies `f`, which may read the keys and the tweak, to STATE, and changes nothing else (R129). -/
def TransformsState (i : Instr) (f : Keys → Block → Block) : Prop :=
  ∀ s : State, exec i s = .next (s.setState (f s.keys s.state))

theorem mc_transformsState : TransformsState .mc fun _ => mix := exec_mc

theorem arc_transformsState {r : Byte} (h : r.toNat < 32) :
    TransformsState (.arc r) fun _ b => arc Config.hardware b r.toNat :=
  fun s => exec_arc r s h

theorem atk_transformsState (r : Byte) : TransformsState (.atk r) fun k b => atk Config.hardware k b r.toNat :=
  exec_atk r

theorem pn_transformsState : TransformsState .pn fun _ => pn Config.hardware := exec_pn

theorem sb_transformsState : TransformsState .sb fun _ => sb Config.hardware := exec_sb

theorem rnd_transformsState {r : Byte} (h : r.toNat < 32) :
    TransformsState (.rnd r) fun k b => round Config.hardware k b r.toNat :=
  fun s => exec_rnd r s h

namespace TransformsState

variable {i : Instr} {f : Keys → Block → Block}

/-- The answer, from the value of the function at the STATE that stands. -/
theorem exec_eq (h : TransformsState i f) {s : State} {b : Block} (hb : f s.keys s.state = b) :
    exec i s = .next { s with state := b } := by
  rw [h s, hb]
  rfl

/-- A value that the function leaves alone leaves the whole state alone. -/
theorem exec_fixed (h : TransformsState i f) {s : State} (hb : f s.keys s.state = s.state) : exec i s = .next s :=
  h.exec_eq hb

/-- A command whose function is an involution restores the state when it is run twice. -/
theorem exec_twice (h : TransformsState i f) {s : State} (hf : Function.Involutive (f s.keys)) :
    exec i { s with state := f s.keys s.state } = .next s :=
  h.exec_eq (s := s.setState (f s.keys s.state)) (hf s.state)

/-- The edge that accepts the command's word applies the function to what STATE holds then. -/
theorem edges_present (h : TransformsState i f) {s : State} (hb : s.busy = false) (hwf : i.wf Config.hardware = true) (n : Nat)
    (b : Block) (d : DataWord) (rest : List PortIn) :
    edges (n + 1) ((s.setState b).setInputs (present (encode i) d :: rest)) =
      edges n ((s.setState (f s.keys b)).setInputs rest) := by
  refine edges_succ n ((step_present (s := s.setState b) hb (decodeIn_encode hwf) (h _)).trans ?_)
  rw [setInputs_keys, setInputs_state, setState_setInputs, nextEdge_setInputs, setState_keys, setState_state, setState_setState]

end TransformsState

/-! ## Mixing -/

/-- Blocks that agree in each of the four columns are equal. -/
theorem block_ext_columns {a b : Block} (h : ∀ (i : Nat) (_ : i < 4),
    a[i] = b[i] ∧ a[i + 4] = b[i + 4] ∧ a[i + 8] = b[i + 8] ∧ a[i + 12] = b[i + 12]) : a = b := by
  ext j hj : 1
  obtain ⟨h0, h1, h2, h3⟩ := h (j % 4) (by omega)
  obtain hq | hq | hq | hq : j = j % 4 ∨ j = j % 4 + 4 ∨ j = j % 4 + 8 ∨ j = j % 4 + 12 := by omega
  · simpa only [← hq] using h0
  · simpa only [← hq] using h1
  · simpa only [← hq] using h2
  · simpa only [← hq] using h3

/-- `mix` on one column (R120). -/
theorem mix_get_column (b : Block) (i : Nat) (h : i < 4) :
    (mix b)[i] = b[i] ^^^ b[i + 8] ^^^ b[i + 12] ∧ (mix b)[i + 4] = b[i + 4] ^^^ b[i + 12] ∧
      (mix b)[i + 8] = b[i + 8] ∧ (mix b)[i + 12] = b[i + 12] :=
  ⟨mix_get_row0 b i h, mix_get_row1 b i h, mix_get_low b (i + 8) (by omega) (by omega),
    mix_get_low b (i + 12) (by omega) (by omega)⟩

theorem mix_xorBlock (a b : Block) : mix (xorBlock a b) = xorBlock (mix a) (mix b) := by
  refine block_ext_columns fun i h => ?_
  simp only [mix_get_column _ i h, xorBlock_get]
  exact ⟨by ac_rfl, by ac_rfl, trivial, trivial⟩

/-- Mixing changes nothing when the lower two rows are zero (R121). -/
theorem mix_eq_self {b : Block} (hlow : ∀ (i : Nat) (_ : i < 8), b[i + 8] = 0) : mix b = b := by
  refine block_ext_columns fun i h => ?_
  have h8 : b[i + 8] = 0#4 := hlow i (by omega)
  have h12 : b[i + 12] = 0#4 := hlow (i + 4) (by omega)
  simp [mix_get_column b i h, h8, h12]

/-- Mixing is its own inverse: the lower rows stay, and what they add to the upper rows cancels (R122). -/
theorem mix_involutive : Function.Involutive mix := by
  refine fun b => block_ext_columns fun i h => ?_
  simp only [mix_get_column _ i h]
  refine ⟨?_, ?_, trivial, trivial⟩
  · calc b[i] ^^^ b[i + 8] ^^^ b[i + 12] ^^^ b[i + 8] ^^^ b[i + 12]
      _ = b[i] ^^^ (b[i + 8] ^^^ b[i + 8]) ^^^ (b[i + 12] ^^^ b[i + 12]) := by ac_rfl
      _ = b[i] := by simp
  · rw [BitVec.xor_assoc, BitVec.xor_self, BitVec.xor_zero]

/-- Settles O36: column by column. -/
theorem mixIsALinearInvolution : Obligations.MixIsALinearInvolution :=
  ⟨mix_xorBlock, mix_eq_self (by simp), mix_involutive, mix_get_column⟩

/-- Settles O35: MC transforms STATE by `mix`. -/
theorem mcMixesState : Obligations.McMixesState := by
  refine ⟨fun w hop => ?_, fun s => ⟨mix s.state, exec_mc s, mix_get_column s.state, ?_⟩, fun s hlow => ?_, fun s hs => ?_,
    fun s hs => ?_⟩
  · exact decodeIn_plainWord (op := .mc) hop rfl
  · exact mc_transformsState.exec_twice mix_involutive
  · exact mc_transformsState.exec_fixed (mix_eq_self hlow)
  · exact mc_transformsState.exec_eq (by rw [hs]; decide)
  · exact mc_transformsState.exec_eq (by rw [hs]; decide)

/-! ## Round constants -/

theorem arc_get_4 (c : Config) (b : Block) (r : Nat) : (arc c b r)[4] = b[4] ^^^ roundConstA c r := by
  simp [arc_get]

theorem arc_get_5 (c : Config) (b : Block) (r : Nat) : (arc c b r)[5] = b[5] ^^^ (roundConstB c r).setWidth 4 := by
  simp [arc_get]

theorem arc_get_other (c : Config) (b : Block) (r i : Nat) (h : i < 16) (h4 : i ≠ 4) (h5 : i ≠ 5) :
    (arc c b r)[i] = b[i] := by
  simp [arc_get, h4, h5]

/-- Round-constant injection is its own inverse: the constants cancel in nibbles 4 and 5 (R124). -/
theorem arc_involutive (c : Config) (r : Nat) : Function.Involutive fun b => arc c b r := by
  intro b
  ext i h : 1
  by_cases h4 : i = 4
  · subst h4
    simp [arc_get_4]
  · by_cases h5 : i = 5
    · subst h5
      simp [arc_get_5]
    · simp [arc_get_other _ _ _ i h h4 h5]

/-- The 4-bit constants of the hardware repeat every 15 rounds (R104). -/
theorem hardware_rcA_periodic {r : Nat} (h : r + 15 < 32) : Config.hardware.rcA[r]? = Config.hardware.rcA[r + 15]? := by
  have hall : ∀ r < 17, Config.hardware.rcA[r]? = Config.hardware.rcA[r + 15]? := by decide
  exact hall r (by omega)

/-- The 3-bit constants of the hardware repeat every 7 rounds (R104). -/
theorem hardware_rcB_periodic {r : Nat} (h : r + 7 < 32) : Config.hardware.rcB[r]? = Config.hardware.rcB[r + 7]? := by
  have hall : ∀ r < 25, Config.hardware.rcB[r]? = Config.hardware.rcB[r + 7]? := by decide
  exact hall r (by omega)

/-- Settles O37: ARC transforms STATE by `arc`, whose constants below 32 are the entries of the tables. -/
theorem arcInjectsRoundConstants : Obligations.ArcInjectsRoundConstants := by
  refine ⟨fun w hop => ?_, fun r s hr => ?_, fun s e _ => step_rejects_onlyStatusChanged, fun r => hardware_rcA_periodic,
    fun r => hardware_rcB_periodic, fun s hs => ?_, fun s hs => ⟨?_, ?_⟩⟩
  · exact decodeIn_roundIndexWord (op := .arc) hop rfl
  · have hA : r.toNat < Config.hardware.rcA.length := hr
    have hB : r.toNat < Config.hardware.rcB.length := hr
    refine ⟨_, _, arc Config.hardware s.state r.toNat, List.getElem?_eq_getElem hA, List.getElem?_eq_getElem hB,
      exec_arc r s hr, ?_, ?_, arc_get_other _ _ _, ?_⟩
    · rw [arc_get_4, roundConstA_eq _ _ hA]
    · rw [arc_get_5, roundConstB_eq _ _ hB]
    · exact (arc_transformsState hr).exec_twice (arc_involutive _ _)
  · exact (arc_transformsState (by decide)).exec_eq (by rw [hs]; decide)
  · exact (arc_transformsState (by decide)).exec_eq (by rw [hs]; decide)
  · exact (arc_transformsState (by decide)).exec_eq (by rw [hs]; decide)

/-! ## The nibble permutation -/

theorem block_toList (b : Block) : b.toList = List.ofFn fun i : Fin 16 => b[i] := by
  rw [← Vector.toList_ofFn]
  congr 1
  ext i h : 1
  simp

/-- Moving the nibbles keeps each of them, as often as it stands in the Block (R126). -/
theorem pn_toList_perm (c : Config) (b : Block) (hp : ∀ i j : Fin 16, c.permP[i] = c.permP[j] → i = j) :
    (pn c b).toList.Perm b.toList := by
  have hbij : Function.Bijective fun i : Fin 16 => c.permP[i] := Finite.injective_iff_bijective.1 hp
  have hmoved : (fun i : Fin 16 => (pn c b)[i]) ∘ Equiv.ofBijective _ hbij = fun i : Fin 16 => b[i] :=
    funext (pn_get c b hp)
  rw [block_toList, block_toList b, ← hmoved]
  exact (Equiv.Perm.ofFn_comp_perm (Equiv.ofBijective _ hbij) _).symm

theorem hardware_permP_injective : ∀ i j : Fin 16, Config.hardware.permP[i] = Config.hardware.permP[j] → i = j := by decide

theorem hardware_permP_involutive : ∀ i : Fin 16, Config.hardware.permP[Config.hardware.permP[i]] = i := by decide

/-- The permutation of the hardware is its own inverse, so the direction does not show in it (R126). -/
theorem pn_hardware_get (b : Block) (i : Fin 16) : (pn Config.hardware b)[i] = b[Config.hardware.permP[i]] := by
  have h := pn_get Config.hardware b hardware_permP_injective Config.hardware.permP[i]
  simpa only [hardware_permP_involutive] using h

theorem pn_hardware_involutive : Function.Involutive (pn Config.hardware) := by
  intro b
  ext i h : 1
  calc (pn Config.hardware (pn Config.hardware b))[i]
    _ = (pn Config.hardware b)[Config.hardware.permP[i]] := pn_hardware_get _ ⟨i, h⟩
    _ = b[i] := pn_get Config.hardware b hardware_permP_injective ⟨i, h⟩

theorem pn_hardware_replicate (x : Nibble) : pn Config.hardware (Vector.replicate 16 x) = Vector.replicate 16 x := by
  ext i h : 1
  exact (pn_hardware_get _ ⟨i, h⟩).trans (by simp)

/-- Settles O39: PN transforms STATE by `pn`, and the default table is an involution. -/
theorem pnMovesNibbles : Obligations.PnMovesNibbles := by
  refine ⟨fun w hop => ?_, fun s => ⟨pn Config.hardware s.state, exec_pn s, ?_, ?_, ?_⟩, fun c b hc => ?_, pn_hardware_get,
    fun s x hs => ?_, fun s hs => ?_, fun s hs => ?_⟩
  · exact decodeIn_plainWord (op := .pn) hop rfl
  · exact pn_get _ _ hardware_permP_injective
  · exact pn_toList_perm _ _ hardware_permP_injective
  · exact pn_transformsState.exec_twice pn_hardware_involutive
  · obtain ⟨-, -, -, hp, -⟩ := hc
    exact pn_get c b hp
  · exact pn_transformsState.exec_fixed (by rw [hs, pn_hardware_replicate])
  · exact pn_transformsState.exec_eq (by rw [hs]; decide)
  · exact pn_transformsState.exec_eq (by rw [hs]; decide)

/-! ## Substitution -/

/-- A substituted nibble is the table's entry (R127). -/
theorem sbox_getElem?_eq_sb (c : Config) (b : Block) (i : Nat) (h : i < 16) :
    c.sbox[(b[i]).toNat]? = some (sb c b)[i] := by
  rw [sb_get, subNibble, Vector.getElem?_eq_getElem]

theorem subNibble_hardware_involutive : Function.Involutive (subNibble Config.hardware) := by
  unfold Function.Involutive; decide

/-- The nibbles the hardware's table fixes (R101). -/
theorem subNibble_hardware_fixed : ∀ x : Nibble, x = 3 ∨ x = 7 ∨ x = 8 ∨ x = 9 → subNibble Config.hardware x = x := by
  decide

theorem sb_hardware_involutive : Function.Involutive (sb Config.hardware) := by
  intro b
  ext i h : 1
  rw [sb_get, sb_get, subNibble_hardware_involutive]

/-- Settles O40: SB transforms STATE by `sb`, nibble by nibble, and the default table is an involution. -/
theorem sbSubstitutesEveryNibble : Obligations.SbSubstitutesEveryNibble := by
  refine ⟨fun w hop => ?_, fun s => ⟨sb Config.hardware s.state, exec_sb s, sbox_getElem?_eq_sb _ _, fun i h hx => ?_, ?_⟩,
    sbox_getElem?_eq_sb, fun s hs => ?_, fun s hs => ?_, by decide, fun s hs => ?_⟩
  · exact decodeIn_plainWord (op := .sb) hop rfl
  · rw [sb_get, subNibble_hardware_fixed _ hx]
  · exact sb_transformsState.exec_twice sb_hardware_involutive
  · exact sb_transformsState.exec_eq (by rw [hs]; decide)
  · exact sb_transformsState.exec_eq (by rw [hs]; decide)
  · exact sb_transformsState.exec_eq (by rw [hs]; decide)

/-! ## The five steps -/

theorem atk_involutive (c : Config) (k : Keys) (r : Nat) : Function.Involutive fun b => atk c k b r :=
  fun b => atk_atk c k b r

/-- Settles O41: the function of each step is an involution, so a bijection. -/
theorem roundStepsAreBijectionsOnState : Obligations.RoundStepsAreBijectionsOnState := by
  rintro i (rfl | ⟨r, hr, rfl⟩ | ⟨r, rfl⟩ | rfl | rfl)
  · exact ⟨_, fun _ => mix_involutive.bijective, fun _ _ _ => rfl, mc_transformsState⟩
  · exact ⟨_, fun _ => (arc_involutive _ _).bijective, fun _ _ _ => rfl, arc_transformsState hr⟩
  · exact ⟨_, fun k => (atk_involutive _ k _).bijective, fun h => absurd rfl (h r), atk_transformsState r⟩
  · exact ⟨_, fun _ => pn_hardware_involutive.bijective, fun _ _ _ => rfl, pn_transformsState⟩
  · exact ⟨_, fun _ => sb_hardware_involutive.bijective, fun _ _ _ => rfl, sb_transformsState⟩

/-- A round is the five steps in order (R130). -/
theorem round_eq (c : Config) (k : Keys) (b : Block) (r : Nat) :
    round c k b r = sb c (pn c (atk c k (arc c (mix b) r) r)) := rfl

/-- Settles O42: RND transforms STATE by `round`; in the example each step's value is the next step's argument. -/
theorem rndAppliesOneRound : Obligations.RndAppliesOneRound := by
  refine ⟨fun w hop => ?_, round_eq, fun r s => exec_rnd r s, fun s e _ => step_rejects_onlyStatusChanged, fun s hs hk => ?_,
    fun s hs hk => ?_⟩
  · exact decodeIn_roundIndexWord (op := .rnd) hop rfl
  · exact (rnd_transformsState (by decide)).exec_eq (by rw [hs, hk]; decide)
  · rw [hk]
    have hmix : mix s.state = unpack 0x4567888889ABCDEF := by rw [hs]; decide
    have harc : arc Config.hardware (unpack 0x4567888889ABCDEF) 0 = unpack 0x4567998889ABCDEF := by decide
    have hatk : atk Config.hardware ⟨unpack 0x0123456789ABCDEF, unpack 0xFEDCBA9876543210, unpack 0x0F1E2D3C4B5A6978⟩
        (unpack 0x4567998889ABCDEF) 0 = unpack 0x4B5AF1D34B5A6978 := by decide
    have hpn : pn Config.hardware (unpack 0x4B5AF1D34B5A6978) = unpack 0x86975B4AD1F3B5A4 := by decide
    have hsb : sb Config.hardware (unpack 0x86975B4AD1F3B5A4) = unpack 0x8F97B5E12A635B1E := by decide
    refine ⟨hmix, harc, hatk, hpn, hsb, (rnd_transformsState (r := 0) (by decide)).exec_eq ?_⟩
    rw [hk, round_eq, hmix, show (0 : Byte).toNat = 0 from rfl, harc, hatk, hpn, hsb]

/-- Settles O43: five edges apply the five functions, whose composition is the round. -/
theorem fiveStepsEqualOneRound : Obligations.FiveStepsEqualOneRound := by
  intro s r d rest hb hr
  refine ⟨(s.setState (round Config.hardware s.keys s.state r.toNat)).setInputs rest, ?_, ?_⟩
  · change edges 5 ((s.setState s.state).setInputs _) = _
    rw [mc_transformsState.edges_present hb rfl, (arc_transformsState hr).edges_present hb (decide_eq_true hr),
      (atk_transformsState r).edges_present hb rfl, pn_transformsState.edges_present hb rfl,
      sb_transformsState.edges_present hb rfl, edges_zero, round_eq]
  · change edges 1 ((s.setState s.state).setInputs _) = _
    rw [(rnd_transformsState hr).edges_present hb (decide_eq_true hr), edges_zero]

end Sys2Proof.Machine

/-! PROOFS. ENC: its rounds edge by edge (O44), what it leaves when they are done (O45), the same rounds as RND commands and a
second ENC (O46), the constants and the slot of a round (O47), and encryption as a bijection (O48). -/

namespace Sys2Proof

/-! ## The words of ENC -/

/-- The mask of R79 for ENC clears RCNT and keeps the other fields. -/
theorem and_roundCountMask (w : CmdWord) :
    w &&& 0xFFFFFF00 = wordOf (opField w) (selField w) (rsvField w) (ridxField w) 0 := by
  have hmask : (0xFFFFFF00 : CmdWord) = wordOf (.allOnes 4) (.allOnes 4) (.allOnes 8) (.allOnes 8) 0 := by decide
  conv_lhs => rw [← wordOf_fields w, hmask, wordOf_and]
  simp only [BitVec.and_allOnes, BitVec.ofNat_eq_ofNat, BitVec.and_zero]

/-- ENC accepts the words of its row in R79 whose count is in range, and rejects every other word of its OP. -/
theorem decodeIn_roundCountWord (c : Config) {w : CmdWord} (hop : opField w = Op.enc.field) :
    decodeIn c w = if w &&& 0xFFFFFF00 = wordOf Op.enc.field 0 0 0 0 then
        (if (rcntField w).toNat ≤ c.maxRounds then .command (.enc (rcntField w)) else .error .argRange)
      else .error .rsvdNonzero := by
  have hdef : Op.ofField (opField w) = some .enc := (Op.ofField_eq_some _ _).2 hop
  rw [and_roundCountMask, hop]
  by_cases hr : rsvField w = 0
  · rw [decodeIn_defined c w hdef hr, hr]
    simp [wordOf_inj, decodeOperands, unlessNonzero]
  · rw [decodeIn_rsv c w hdef hr]
    simp only [wordOf_inj, hr, false_and, and_false, if_false]

end Sys2Proof

namespace Sys2Proof.Machine

variable {s : State}

/-! ## An ENC edge by edge -/

/-- With no reset among the next edges there is none at the first of them; past the listed edges the ports are idle. -/
theorem now_rst_of_take {k : Nat} (h : ∀ x ∈ s.inputs.take (k + 1), x.rst = false) : s.now.rst = false := by
  rw [State.now]
  cases hl : s.inputs with
  | nil => rfl
  | cons x l => exact h x (by simp [hl])

/-- With no reset among the next edges there is none among those after the first. -/
theorem rst_of_tail_take {l : List PortIn} {k : Nat} (h : ∀ x ∈ l.take (k + 1), x.rst = false) :
    ∀ x ∈ l.tail.take k, x.rst = false := by
  cases l with
  | nil => simp
  | cons y l => exact fun x hx => h x (List.mem_cons_of_mem y hx)

/-- `nextEdge` drops the first port values, if any are listed. -/
theorem nextEdge_setInputs_tail (s : State) (l : List PortIn) : nextEdge (s.setInputs l) = s.setInputs l.tail := rfl

/-- Edges without a reset run one round each, whatever the host presents, also past the listed port values (R151). -/
theorem edges_afterRounds_drop {n : Byte} (s : State) (j k : Nat) (l : List PortIn) (hk : j + k ≤ n.toNat)
    (hr : ∀ x ∈ l.take k, x.rst = false) :
    edges k ((afterRounds n s j).setInputs l) = .next ((afterRounds n s (j + k)).setInputs (l.drop k)) := by
  induction k generalizing j l with
  | zero => rfl
  | succ k ih =>
    have hlt : j < n.toNat := by omega
    have hstep := step_encRound ((afterRounds n s j).setInputs l) (now_rst_of_take hr) (decide_eq_true hlt)
    rw [encRoundStep_setInputs, encRoundStep_afterRounds hlt, nextEdge_setInputs_tail] at hstep
    rw [edges_succ k hstep, ← Nat.add_assoc, Nat.add_right_comm, ← List.drop_tail]
    exact ih (j + 1) l.tail (by omega) (rst_of_tail_take hr)

/-- The accepting edge of ENC n, n ≠ 0, and `k` of its n round edges (R151). -/
theorem edges_enc_rounds {n : Byte} {k : Nat} (ha : AcceptsCommand s (.enc n)) (hn : n ≠ 0#8) (hk : k ≤ n.toNat)
    (hr : ∀ x ∈ s.inputs.take (k + 1), x.rst = false) :
    edges (k + 1) s = .next ((afterRounds n s k).setInputs (s.inputs.drop (k + 1))) := by
  have hwf : n.toNat ≤ 32 := of_decide_eq_true (decodeIn_wf ha.2)
  have hstep := step_command ha (exec_enc n s hwf)
  rw [startEnc_eq_afterRounds hn] at hstep
  rw [edges_succ k hstep, ← List.drop_tail]
  have h := edges_afterRounds_drop s 0 k s.inputs.tail (n := n) (by omega) (rst_of_tail_take hr)
  rwa [Nat.zero_add] at h

/-- A round edge writes STATE, RCTR and BUSY (R151). -/
theorem nextEdge_encRoundStep_of_busy (hb : s.busy = true) : nextEdge (encRoundStep Config.hardware s) = { s with
    state := round Config.hardware s.keys s.state s.rctr.toNat, rctr := s.rctr + 1,
    busy := if s.rctr + 1 = s.rlim then false else true, inputs := s.inputs.tail } := by
  have hbusy : (s.busy && s.rctr + 1#8 != s.rlim) = if s.rctr + 1 = s.rlim then false else true := by
    rw [hb]
    by_cases h : s.rctr + 1#8 = s.rlim <;> simp [h]
  rw [encRoundStep_eq, hbusy]
  generalize round Config.hardware s.keys s.state s.rctr.toNat = b
  rfl

/-- Settles O44: the accepting edge, one round edge, a reset, and `k` edges by induction. -/
theorem encRunsOneRoundPerEdge : Obligations.EncRunsOneRoundPerEdge := by
  refine ⟨fun s => ?_, fun n s hn hle => ?_, fun s hr hb => ?_, fun s hr _ => ?_, fun s n k ha hn hk hr => ?_⟩
  · exact exec_enc 0 s (by decide)
  · rw [exec_enc n s hle, startEnc_pos n s hn]
    rfl
  · rw [step_encRound s hr hb, nextEdge_encRoundStep_of_busy hb]
  · exact ⟨_, step_reset s hr, by simp [RegistersReset]⟩
  · have hwf : n.toNat ≤ 32 := of_decide_eq_true (decodeIn_wf ha.2)
    refine ⟨_, edges_enc_rounds ha hn hk hr, rfl, Nat.mod_eq_of_lt (by omega), by omega, rfl, fun hrst => ?_⟩
    rw [cmdReady, hrst, Bool.not_false, Bool.and_true]
    rfl

/-! ## The state ENC leaves -/

/-- Rounds 0 to n-1 in order, as a fold over their indices (R150). -/
theorem foldl_round_eq_encrypt (c : Config) (k : Keys) (b : Block) (n : Nat) :
    (List.range n).foldl (fun b r => round c k b r) b = encrypt c k b n := by
  induction n with
  | zero => rfl
  | succ n ih => rw [List.range_succ, List.foldl_append, ih, List.foldl_cons, List.foldl_nil, encrypt_succ]

/-- The write of RCTR and RLIM, BUSY left alone. -/
def State.setCounts (s : State) (a b : Byte) : State := s.setRun s.busy a b

theorem recordError_setCounts (e : CmdError) (s : State) (a b : Byte) :
    recordError e (s.setCounts a b) = (recordError e s).setCounts a b := by
  cases h : s.err with
  | true => rw [recordError_later e s h, recordError_later e (s.setCounts a b) h]
  | false => rw [recordError_first e s h, recordError_first e (s.setCounts a b) h]; rfl

theorem setBlock_setCounts (r : BlockReg) (v : Block) (s : State) (a b : Byte) :
    (s.setCounts a b).setBlock r v = (s.setBlock r v).setCounts a b := by cases r <;> rfl

theorem readSel_setCounts (c : Config) (v : ReadSel) (s : State) (a b : Byte) :
    readSel c v (s.setCounts a b) = readSel c v s := by
  cases v with
  | block r => cases r <;> rfl
  | tk j => rfl
  | dtk j => rfl
  | status => rfl

/-- The accepting edge of an ENC overwrites both counts or leaves both alone (R151). -/
theorem startEnc_setCounts (count : Byte) (s : State) (a b : Byte) :
    ∃ a' b', startEnc count (s.setCounts a b) = (startEnc count s).setCounts a' b' := by
  by_cases h : count = 0#8
  · exact ⟨a, b, by rw [h, startEnc_zero, startEnc_zero]⟩
  · exact ⟨0#8, count, by rw [startEnc_pos count _ h, startEnc_pos count s h]; rfl⟩

/-- A guarded command whose effect does not depend on RCTR and RLIM answers the same but for them. -/
theorem whenInRange_setCounts {ok : Bool} {e : CmdError} {t u : State} (h : whenInRange ok e s t = .next u)
    (a b a' b' : Byte) :
    ∃ x y, whenInRange ok e (s.setCounts a b) (t.setCounts a' b') = .next (u.setCounts x y) := by
  cases ok with
  | true => exact ⟨a', b', by rw [← Host.Outcome.next.inj h, whenInRange_true, if_pos rfl]⟩
  | false =>
    exact ⟨a, b, by
      rw [← Host.Outcome.next.inj h, whenInRange_false, if_neg Bool.false_ne_true, recordError_setCounts]⟩

/-- Whatever RCTR and RLIM hold, a command answers the same but for them (R153). -/
theorem exec_setCounts {i : Instr} {t : State} (h : exec i s = .next t) (a b : Byte) :
    ∃ a' b', exec i (s.setCounts a b) = .next (t.setCounts a' b') := by
  have answers {u : State} {a' b' : Byte} (hu : exec i s = .next u)
      (hu' : exec i (s.setCounts a b) = .next (u.setCounts a' b')) :
      ∃ a' b', exec i (s.setCounts a b) = .next (t.setCounts a' b') :=
    ⟨a', b', Host.Outcome.next.inj (hu.symm.trans h) ▸ hu'⟩
  cases i with
  | nop => exact answers (exec_nop s) (exec_nop _)
  | ld r => exact answers (exec_ld r s) ((exec_ld r _).trans (congrArg _ (setBlock_setCounts r _ s a b)))
  | rd v =>
    refine answers (a' := a) (b' := b) (exec_rd v s) ?_
    rw [exec_rd, readSel_setCounts]; rfl
  | enc n =>
    obtain ⟨a', b', hstart⟩ := startEnc_setCounts n s a b
    have hguard := whenInRange_setCounts h a b a' b'
    rwa [← hstart] at hguard
  | mc => exact answers (exec_mc s) (exec_mc _)
  | arc r => exact whenInRange_setCounts h a b a b
  | atk r => exact answers (exec_atk r s) (exec_atk r _)
  | pn => exact answers (exec_pn s) (exec_pn _)
  | sb => exact answers (exec_sb s) (exec_sb _)
  | rnd r => exact whenInRange_setCounts h a b a b
  | clrerr => exact answers (exec_clrerr s) (exec_clrerr _)
  | srst => exact answers (a' := 0) (b' := 0) (exec_srst s) (exec_srst _)

/-- A rejected word leaves BUSY alone (R203). -/
theorem OnlyStatusChanged.busy {t : State} (h : OnlyStatusChanged s t) : t.busy = s.busy := by
  rw [OnlyStatusChanged] at h
  rw [h]

/-- Settles O45: the fold over the round indices is `encrypt`, which `edges_enc` finds in STATE. -/
theorem encCompletesAsRoundsZeroToR : Obligations.EncCompletesAsRoundsZeroToR := by
  refine ⟨fun w hop => ?_, fun s n x xs rest hb hn hin hrx hv hcmd hlen hr => ?_, fun s e _ he => ?_,
    fun i s t a b h => ?_, fun k b hb hk => ?_⟩
  · exact decodeIn_roundCountWord Config.hardware hop
  · have hd : decode x.cmd = .command (.enc n) := by
      rw [hcmd, ← encode_enc]
      exact decodeIn_encode (decide_eq_true hn)
    have henc := edges_enc s rest hb hn hrx hv hd hlen hr
    rw [← hin, setInputs_self] at henc
    rw [henc, foldl_round_eq_encrypt]
    simp only [hb]
    rfl
  · obtain ⟨t, ht, -, hstatus⟩ := step_rejects_onlyStatusChanged he
    obtain ⟨-, hb, -⟩ := (accepts_eq s).1 he.1
    exact ⟨t, ht, hstatus.busy.trans hb, hstatus⟩
  · obtain ⟨a', b', hu⟩ := exec_setCounts h a b
    exact ⟨_, hu, rfl⟩
  · rw [hb, hk]
    decide

/-! ## RND commands in a row and a second ENC -/

/-- RND 0 to RND n-1 at n edges in a row leave what ENC n leaves in STATE (R157). -/
theorem edges_rnds (s : State) (hb : s.busy = false) (d : DataWord) (n : Nat) (hn : n ≤ 32) (rest : List PortIn) :
    edges n (s.setInputs ((List.range n).map (fun r => present (encode (.rnd (BitVec.ofNat 8 r))) d) ++ rest)) =
      .next ((s.setState (encrypt Config.hardware s.keys s.state n)).setInputs rest) := by
  induction n generalizing rest with
  | zero => rfl
  | succ n ih =>
    have hidx : (BitVec.ofNat 8 n).toNat = n := Nat.mod_eq_of_lt (by omega)
    have hlt : (BitVec.ofNat 8 n).toNat < 32 := by omega
    rw [List.range_succ, List.map_append, List.append_assoc, edges_add 1 (ih (by omega) _), encrypt_succ]
    refine ((rnd_transformsState hlt).edges_present hb (decide_eq_true hlt) 0 _ d rest).trans ?_
    rw [hidx, edges_zero]

/-- Over the n + 1 edges from its acceptance ENC n applies rounds 0 to n-1 to STATE (R150). -/
theorem edges_enc_state {n : Byte} (ha : AcceptsCommand s (.enc n))
    (hr : ∀ x ∈ s.inputs.take (n.toNat + 1), x.rst = false) :
    ∃ u, edges (n.toNat + 1) s = .next u ∧ u.state = encrypt Config.hardware s.keys s.state n.toNat := by
  by_cases hn : n = 0#8
  · subst hn
    exact ⟨_, edges_one (step_command ha (exec_enc 0 s (by decide))), rfl⟩
  · exact ⟨_, edges_enc_rounds ha hn le_rfl hr, rfl⟩

/-- Settles O46: both sequences leave `encrypt` in STATE. -/
theorem encEqualsRndsInOrderAndIsNotResumable : Obligations.EncEqualsRndsInOrderAndIsNotResumable := by
  refine ⟨fun s n d hb hn => ?_, fun s a b hb ha hn => ?_, encrypt_succ Config.hardware, fun k hk => ?_⟩
  · have hrnds := edges_rnds s hb d n.toNat hn []
    have haccepts : AcceptsCommand (s.setInputs [present (encode (.enc n)) d]) (.enc n) :=
      ⟨(accepts_eq _).2 ⟨rfl, hb, rfl⟩, decodeIn_encode (decide_eq_true hn)⟩
    obtain ⟨u, hu, hstate⟩ := edges_enc_state haccepts (by simp [present])
    rw [List.append_nil] at hrnds
    exact ⟨_, u, hrnds, hu, hstate.symm⟩
  · obtain ⟨x, y, hfirst⟩ := edges_drive_enc s hb ha 0 [(encode (.enc b), 0)] [] (b.toNat + 1)
    obtain ⟨x', y', hsecond⟩ := edges_drive_enc
      ((s.setState (encrypt Config.hardware s.keys s.state a.toNat)).setRun false x y) rfl hn 0 [] [] 0
    rw [List.append_nil] at hfirst
    exact ⟨_, hfirst.trans hsecond, rfl⟩
  · rw [hk]
    decide

/-! ## The constants of a round -/

/-- The Block a round substitutes and moves: the mixed Block with the constants and the tweakey of the round (R154). -/
theorem atk_arc_get {c : Config} {r : Nat} (hA : r < c.rcA.length) (hB : r < c.rcB.length) (k : Keys) (b : Block)
    (i : Nat) (h : i < 16) :
    (atk c k (arc c b r) r)[i] =
      b[i] ^^^ (if i = 4 then c.rcA[r] else if i = 5 then (c.rcB[r]).setWidth 4 else 0) ^^^ (tk c k (slotOf r))[i] := by
  rw [atk_get]
  congr 1
  by_cases h4 : i = 4
  · subst h4
    rw [arc_get_4, roundConstA_eq c r hA, if_pos rfl]
  · by_cases h5 : i = 5
    · subst h5
      rw [arc_get_5, roundConstB_eq c r hB, if_neg h4, if_pos rfl]
    · rw [arc_get_other c b r i h h4 h5, if_neg h4, if_neg h5, BitVec.ofNat_eq_ofNat, BitVec.xor_zero]

/-- Settles O47: below MAX_ROUNDS the constants are the entries of the tables, and `pn` moves what `sb` then substitutes. -/
theorem roundUsesItsSlotAndConstants : Obligations.RoundUsesItsSlotAndConstants := by
  rintro c k b r ⟨-, hlenA, hlenB, hp, -⟩ hr
  have hA : r < c.rcA.length := hlenA ▸ hr
  have hB : r < c.rcB.length := hlenB ▸ hr
  refine ⟨slotOf r, c.rcA[r], c.rcB[r], atk c k (arc c (mix b) r) r, slotOf_val r, List.getElem?_eq_getElem hA,
    List.getElem?_eq_getElem hB, atk_arc_get hA hB k (mix b), fun i => ?_⟩
  rw [round_eq, ← pn_get c (atk c k (arc c (mix b) r) r) hp i]
  exact sbox_getElem?_eq_sb c _ _ _

/-! ## Encryption as a bijection -/

/-- Moving the nibbles by a table without repeats is undone by reading them through it (R125). -/
theorem pn_bijective (c : Config) (hp : ∀ i j : Fin 16, c.permP[i] = c.permP[j] → i = j) :
    Function.Bijective (pn c) := by
  have hsurj : Function.Surjective fun i : Fin 16 => c.permP[i] := Finite.surjective_of_injective hp
  refine Function.bijective_iff_has_inverse.2 ⟨gather c.permP, fun b => ?_, fun b => ?_⟩
  · ext i h : 1
    rw [gather_get]
    exact pn_get c b hp ⟨i, h⟩
  · have hread : ∀ j : Fin 16, (pn c (gather c.permP b))[j] = b[j] := fun j => by
      obtain ⟨i, rfl⟩ := hsurj j
      exact (pn_get c _ hp i).trans (gather_get c.permP b i i.isLt)
    ext j h : 1
    exact hread ⟨j, h⟩

/-- A table without repeats takes each nibble to another (R127). -/
theorem subNibble_bijective (c : Config) (hs : ∀ i j : Fin 16, c.sbox[i] = c.sbox[j] → i = j) :
    Function.Bijective (subNibble c) := by
  refine Finite.injective_iff_bijective.1 fun x y h => BitVec.eq_of_toNat_eq ?_
  exact congrArg Fin.val (hs x.toFin y.toFin h)

/-- Substituting by a bijection of the nibbles is undone nibble by nibble (R129). -/
theorem sb_bijective (c : Config) (hs : ∀ i j : Fin 16, c.sbox[i] = c.sbox[j] → i = j) : Function.Bijective (sb c) := by
  obtain ⟨g, hleft, hright⟩ := Function.bijective_iff_has_inverse.1 (subNibble_bijective c hs)
  refine Function.bijective_iff_has_inverse.2 ⟨fun b => b.map g, fun b => ?_, fun b => ?_⟩
  · ext i h : 1
    rw [Vector.getElem_map, sb_get, hleft]
  · ext i h : 1
    rw [sb_get, Vector.getElem_map, hright]

/-- A round is a bijection on Blocks: each of its steps is one (R129, R130). -/
theorem round_bijective (c : Config) (hp : ∀ i j : Fin 16, c.permP[i] = c.permP[j] → i = j)
    (hs : ∀ i j : Fin 16, c.sbox[i] = c.sbox[j] → i = j) (k : Keys) (r : Nat) :
    Function.Bijective fun b => round c k b r := by
  have hsteps : (fun b => round c k b r) = sb c ∘ pn c ∘ (fun b => atk c k b r) ∘ (fun b => arc c b r) ∘ mix := by
    funext b
    simp only [Function.comp_apply, round_eq]
  rw [hsteps]
  exact (sb_bijective c hs).comp <| (pn_bijective c hp).comp <| (atk_involutive c k r).bijective.comp <|
    (arc_involutive c r).bijective.comp mix_involutive.bijective

theorem hardware_wf : Config.hardware.Wf :=
  ⟨by decide, by decide, by decide, hardware_permP_injective, by decide⟩

/-- Settles O48, by induction on the rounds. -/
theorem encryptionIsABijection : Obligations.EncryptionIsABijection := by
  refine ⟨fun c ⟨_, _, _, hp, _⟩ hs k n => ?_, hardware_wf, by decide⟩
  induction n with
  | zero => exact Function.bijective_id
  | succ n ih =>
    have hlast : (fun b => encrypt c k b (n + 1)) = (fun b => round c k b n) ∘ fun b => encrypt c k b n :=
      funext fun b => encrypt_succ c k b n
    rw [hlast]
    exact (round_bijective c hp hs k n).comp ih

end Sys2Proof.Machine

/-! PROOFS. The host transfer and control commands: NOP (O23), LD (O24), RD (O25), CLRERR (O26) and SRST (O27). -/

namespace Sys2Proof

/-! ## The words of LD and RD -/

/-- A word is its OP, its SEL and its low 24 bits. -/
theorem opSelLow_fields (w : CmdWord) : opField w ++ selField w ++ w.extractLsb' 0 24 = w := by
  have hopSel : (w.extractLsb' 28 4 ++ w.extractLsb' 24 4 : BitVec 8) = w.extractLsb' 24 8 :=
    BitVec.extractLsb'_append_extractLsb'_eq_extractLsb' rfl
  have hall : (w.extractLsb' 24 8 ++ w.extractLsb' 0 24 : BitVec 32) = w.extractLsb' 0 32 :=
    BitVec.extractLsb'_append_extractLsb'_eq_extractLsb' rfl
  rw [opField, selField, hopSel, hall]
  exact BitVec.extractLsb'_eq_self

/-- The low 24 bits of a word are RSV, RIDX and RCNT (R71). -/
theorem rsvRidxRcnt_fields (w : CmdWord) : rsvField w ++ ridxField w ++ rcntField w = w.extractLsb' 0 24 := by
  have hhigh : (w.extractLsb' 16 8 ++ w.extractLsb' 8 8 : BitVec 16) = w.extractLsb' 8 16 :=
    BitVec.extractLsb'_append_extractLsb'_eq_extractLsb' rfl
  rw [rsvField, ridxField, hhigh]
  exact BitVec.extractLsb'_append_extractLsb'_eq_extractLsb' rfl

/-- An operation that uses neither RIDX nor RCNT rejects a word with a nonzero bit below SEL (R74 to R76). -/
theorem decodeIn_low_nonzero (c : Config) {w : CmdWord} {op : Op} (hop : opField w = op.field)
    (harc : op ≠ .arc) (hatk : op ≠ .atk) (hrnd : op ≠ .rnd) (henc : op ≠ .enc) (h : w.extractLsb' 0 24 ≠ 0) :
    decodeIn c w = .error .rsvdNonzero := by
  have hdef : Op.ofField (opField w) = some op := (Op.ofField_eq_some _ _).2 hop
  by_cases hrsv : rsvField w = 0
  · refine decodeIn_rsvdNonzero hdef ?_
    by_cases hridx : ridxField w = 0
    · refine decodeOperands_rcnt_unused c _ _ henc fun hrcnt => h ?_
      rw [← rsvRidxRcnt_fields, hrsv, hridx, hrcnt]; rfl
    · exact decodeOperands_ridx_unused c _ _ harc hatk hrnd hridx
  · exact decodeIn_rsv c w hdef hrsv

/-- A word with no bit set below SEL is decoded from its OP and SEL alone. -/
theorem decodeIn_low_zero (c : Config) {w : CmdWord} {op : Op} (hop : opField w = op.field) (h : w.extractLsb' 0 24 = 0) :
    decodeIn c w = decodeOperands c op (selField w) 0 0 := by
  rw [← decodeIn_opSel, ← hop]
  conv_lhs => rw [← opSelLow_fields w, h]
  rfl

theorem BlockReg.ofSel_eq_none (x : BitVec 4) : BlockReg.ofSel x = none ↔ 3 < x.toNat := by revert x; decide

theorem ReadSel.ofSel_eq_none (x : BitVec 4) : ReadSel.ofSel x = none ↔ 12 < x.toNat := by revert x; decide

/-- The select codes 8 to 11 name the slots of the schedule DTK (R56). -/
theorem ReadSel.exists_dtk_of_ofSel (x : BitVec 4) (hle : 8 ≤ x.toNat) (hge : x.toNat ≤ 11) :
    ∃ j, ReadSel.ofSel x = some (.dtk j) := by
  revert x; decide

/-- LD names only the select codes 0 to 3 (R171). -/
theorem decodeOperands_ld_illegalSel (c : Config) {sel : BitVec 4} (h : 3 < sel.toNat) :
    decodeOperands c .ld sel 0 0 = .error .illegalSel := by
  simp [decodeOperands, unlessNonzero, (BlockReg.ofSel_eq_none sel).2 h]

/-- RD names only the select codes 0 to 12 (R172). -/
theorem decodeOperands_rd_illegalSel (c : Config) {sel : BitVec 4} (h : 12 < sel.toNat) :
    decodeOperands c .rd sel 0 0 = .error .illegalSel := by
  simp [decodeOperands, unlessNonzero, (ReadSel.ofSel_eq_none sel).2 h]

/-- Without the schedule DTK its select codes are illegal (R176). -/
theorem decodeOperands_rd_dtk_absent {c : Config} {sel : BitVec 4} (hc : c.dtkPresent = false) (hle : 8 ≤ sel.toNat)
    (hge : sel.toNat ≤ 11) : decodeOperands c .rd sel 0 0 = .error .illegalSel := by
  obtain ⟨j, hj⟩ := ReadSel.exists_dtk_of_ofSel sel hle hge
  simp [decodeOperands, unlessNonzero, hj, Instr.wf, hc]

/-- The word of RD is 0x20000000 with the select code at SEL (R73). -/
theorem encode_rd (v : ReadSel) : encode (.rd v) = 0x20000000#32 ||| (v.sel.setWidth 32 <<< 24) := by
  have hword : ∀ sel : BitVec 4, wordOf Op.rd.field sel 0 0 0 = 0x20000000#32 ||| (sel.setWidth 32 <<< 24) := by decide
  exact hword v.sel

end Sys2Proof

namespace Sys2Proof.Machine

variable {s : State}

/-! ## Acceptance and rejection -/

/-- A core with an ENC running accepts nothing (R87). -/
theorem not_acceptsCommand_of_busy (hb : s.busy = true) (i : Instr) : ¬ AcceptsCommand s i := by
  rintro ⟨ha, -⟩
  obtain ⟨-, hidle, -⟩ := (accepts_eq s).1 ha
  exact absurd hb (by simp [hidle])

/-- An accepted command finds `cmd_ready` at 1 (R87). -/
theorem AcceptsCommand.cmdReady {i : Instr} (ha : AcceptsCommand s i) : cmdReady s = true := by
  obtain ⟨hr, hb, -⟩ := (accepts_eq s).1 ha.1
  simp [Machine.cmdReady, hr, hb]

theorem OnlyStatusChanged.dout {t : State} (h : OnlyStatusChanged s t) : t.dout = s.dout := by
  rw [OnlyStatusChanged] at h
  rw [h]

/-- A word rejected while ERR is 1 leaves every register as it was (R202). -/
theorem step_rejects_later {e : CmdError} (he : Rejects s e) (h : s.err = true) : step s = .next (nextEdge s) := by
  rw [step_rejects he, recordError_later e s h]

/-! ## NOP -/

/-- Settles O23: NOP has one word, and `exec` of it answers the state it is given. -/
theorem nopChangesNothing : Obligations.NopChangesNothing :=
  ⟨fun _ hop => decodeIn_plainWord (op := .nop) hop rfl, exec_nop, fun s ha => ⟨ha.cmdReady, step_command ha (exec_nop s)⟩⟩

/-! ## LD -/

/-- Settles O24: the words by their fields, and each LD is the write of its register. -/
theorem ldLoadsOneRegister : Obligations.LdLoadsOneRegister := by
  refine ⟨?state, ?key0, ?key1, ?tweak, fun w hop => ⟨fun hlow => ?reserved, fun hlow hsel => ?select⟩,
    fun s => ⟨exec_ld .state s, exec_ld .key0 s, exec_ld .key1 s, exec_ld .tweak s⟩,
    fun s r hb => not_acceptsCommand_of_busy hb (.ld r), fun s e _ he => ?rejected⟩
  case state | key0 | key1 | tweak => exact decodeIn_eq_command_iff.2 (by decide)
  case reserved => exact decodeIn_low_nonzero _ (op := .ld) hop (by decide) (by decide) (by decide) (by decide) hlow
  case select => exact (decodeIn_low_zero _ (op := .ld) hop hlow).trans (decodeOperands_ld_illegalSel _ hsel)
  case rejected =>
    obtain ⟨t, ht, -, hframe⟩ := step_rejects_onlyStatusChanged he
    exact ⟨t, ht, hframe⟩

/-! ## RD -/

/-- The layout of STATUS as RD returns it: ERR at bit 0, ECODE at bits 7:4, every other bit 0 (R174). -/
theorem statusWord_layout (s : State) : (statusWord s).getLsbD 0 = s.err ∧ (statusWord s).extractLsb' 4 4 = s.ecode ∧
    (statusWord s).extractLsb' 1 3 = 0 ∧ (statusWord s).extractLsb' 8 56 = 0 := by
  unfold statusWord statusByte
  generalize s.err = er
  generalize s.ecode = ec
  revert er ec
  decide

/-- STATUS reads 0x11 after an ILLEGAL_OP (R174). -/
theorem statusWord_illegalOp (he : s.err = true) (hc : s.ecode = 1) : statusWord s = 0x11 := by
  rw [statusWord, statusByte, he, hc]
  decide

/-- RD writes the word it reads into DOUT, and nothing else (R172). -/
theorem exec_rd_eq {v : ReadSel} {w : DataWord} (h : readSel Config.hardware v s = w) :
    exec (.rd v) s = .next (s.setDout w) := by
  rw [exec_rd, h]

/-- Settles O25: the words by their fields, each RD is the write of the word it reads into DOUT, and the schedule of the example
keys is computed. -/
theorem rdCopiesIntoDout : Obligations.RdCopiesIntoDout := by
  refine ⟨fun w hop => ⟨fun hlow => ?_, fun hlow hsel => ?_⟩, fun c w hop hlow hc hle hge => ?_, fun v => ?_,
    fun s => ⟨exec_rd _ s, exec_rd _ s, exec_rd _ s, exec_rd _ s, fun j => exec_rd _ s, fun j => exec_rd _ s,
      statusWord s, exec_rd .status s, statusWord_layout s⟩,
    fun s hs => ?_, fun s hs => ?_, fun s he hc => exec_rd_eq (statusWord_illegalOp he hc), fun s hk => ⟨?_, ?_⟩,
    fun s e _ he => ?_⟩
  · exact decodeIn_low_nonzero _ (op := .rd) hop (by decide) (by decide) (by decide) (by decide) hlow
  · exact (decodeIn_low_zero _ (op := .rd) hop hlow).trans (decodeOperands_rd_illegalSel _ hsel)
  · exact (decodeIn_low_zero c (op := .rd) hop hlow).trans (decodeOperands_rd_dtk_absent hc hle hge)
  · have hwf : (Instr.rd v).wf Config.hardware = true := by cases v <;> rfl
    rw [← encode_rd]
    exact decodeIn_encode hwf
  · exact exec_rd_eq (by rw [readSel, block_state, hs, pack_unpack])
  · exact exec_rd_eq (by rw [readSel, block_key1, hs, pack_unpack])
  · exact exec_rd_eq (by rw [readSel, hk]; decide)
  · exact exec_rd_eq (by rw [readSel, hk]; decide)
  · obtain ⟨t, ht, -, hframe⟩ := step_rejects_onlyStatusChanged he
    exact ⟨t, ht, hframe.dout, hframe⟩

/-! ## CLRERR -/

/-- CLRERR changes nothing when no error is recorded (R177). -/
theorem clearError_eq_self (hs : StatusLegal s) (he : s.err = false) : clearError s = s := by
  have hc : s.ecode = 0 := hs.1.1 he
  rw [clearError, ← he, ← hc]
  rfl

theorem statusWord_clearError (s : State) : statusWord (clearError s) = 0 := by
  rw [statusWord, statusByte, clearError, setStatus_err, setStatus_ecode]
  decide

/-- Settles O26: CLRERR has one word and clears STATUS, and a word rejected while ERR is 1 changes nothing. -/
theorem clrerrClearsStatusOnly : Obligations.ClrerrClearsStatusOnly := by
  refine ⟨fun w hop => decodeIn_plainWord (op := .clrerr) hop rfl, exec_clrerr, fun s hs he => ?_,
    fun s e _ he hrej => ⟨_, step_rejects_later hrej he, he, rfl⟩,
    fun s _ _ => ⟨_, _, exec_clrerr s, statusWord_clearError s, exec_rd .status _, statusWord_clearError s⟩⟩
  rw [exec_clrerr, clearError_eq_self hs he]

/-! ## SRST -/

/-- `reset()` puts every register at its reset value (R251). -/
theorem registersReset_resetCore (s : State) : RegistersReset (resetCore s) := by simp [RegistersReset]

/-- Settles O27: SRST has one word, and like a reset edge it applies `reset()`. -/
theorem srstResetsEveryRegister : Obligations.SrstResetsEveryRegister := by
  refine ⟨fun w hop => decodeIn_plainWord (op := .srst) hop rfl,
    fun s => ⟨_, exec_srst s, registersReset_resetCore s, resetCore_inputs s⟩, fun s ha => ?_,
    fun s hb => not_acceptsCommand_of_busy hb .srst⟩
  rw [step_command ha (exec_srst s), step_cons_reset s _ rfl]
  rfl

end Sys2Proof.Machine

/-! PROOFS. Errors and the edge that always passes: the first failing check of a word gives its code (O16), the first error is
kept (O29), a rejected word changes STATUS only (O30), an idle core holds its state (O6), and no edge stops the core (O5). -/

namespace Sys2Proof

/-! ## The row of an operation in the table of R79 -/

/-- The mask of a field of R79: a field that is used is left out of the match, any other is compared with 0. -/
def fieldMask (used : Prop) [Decidable used] (n : Nat) : BitVec n := if used then 0 else .allOnes n

theorem and_fieldMask_eq_zero {used : Prop} [Decidable used] {n : Nat} (x : BitVec n) :
    x &&& fieldMask used n = 0 ↔ (¬ used → x = 0) := by
  by_cases h : used <;> simp [fieldMask, h]

/-- The row of an operation, from the fields it uses: SEL in LD and RD, RIDX in ARC, ATK and RND, RCNT in ENC (R73 to R76). -/
def Op.row (op : Op) : PatternRow where
  op := op
  pattern := wordOf op.field 0 0 0 0
  mask := wordOf (.allOnes 4) (fieldMask (op = .ld ∨ op = .rd) 4) (.allOnes 8)
    (fieldMask (op = .arc ∨ op = .atk ∨ op = .rnd) 8) (fieldMask (op = .enc) 8)

/-- The fields `op` does not use are 0 in the word (R79). -/
def Op.UnusedZero (op : Op) (w : CmdWord) : Prop :=
  (¬ (op = .ld ∨ op = .rd) → selField w = 0) ∧ (¬ (op = .arc ∨ op = .atk ∨ op = .rnd) → ridxField w = 0) ∧
    (¬ op = .enc → rcntField w = 0)

theorem patternRows_eq_map_row :
    patternRows = [Op.nop, .ld, .rd, .enc, .mc, .arc, .atk, .pn, .sb, .rnd, .clrerr, .srst].map Op.row := by decide

theorem mem_patternRows (row : PatternRow) : row ∈ patternRows ↔ ∃ op : Op, op.row = row := by
  rw [patternRows_eq_map_row, List.mem_map]
  exact exists_congr fun op => and_iff_right (by cases op <;> decide)

/-- A word matches the row of an operation when it has its OP, and RSV and the unused fields are 0 (R79). -/
theorem Op.row_matchesWord (op : Op) (w : CmdWord) :
    op.row.matchesWord w = true ↔ opField w = op.field ∧ rsvField w = 0 ∧ op.UnusedZero w := by
  rw [PatternRow.matchesWord, beq_iff_eq]
  conv_lhs => rw [← wordOf_fields w, Op.row, wordOf_and, wordOf_inj]
  simp only [BitVec.and_allOnes, and_fieldMask_eq_zero, Op.UnusedZero]
  tauto

/-- A word passes the RSVD_NONZERO check when it has the OP of an operation, and RSV and the fields unused there are 0. -/
theorem not_failsReserved_iff (w : CmdWord) :
    ¬ Machine.FailsReserved w ↔ ∃ op : Op, opField w = op.field ∧ rsvField w = 0 ∧ op.UnusedZero w := by
  simp [Machine.FailsReserved, mem_patternRows, Op.row_matchesWord]

theorem Op.field_injective : Function.Injective Op.field := fun p q h =>
  Option.some.inj <| by rw [← Op.ofField_field p, ← Op.ofField_field q, h]

/-- The unused fields of a word that passes the RSVD_NONZERO check, for the operation its OP names. -/
theorem unusedZero_of_not_failsReserved {w : CmdWord} {op : Op} (hop : opField w = op.field) (h : ¬ Machine.FailsReserved w) :
    rsvField w = 0 ∧ op.UnusedZero w := by
  obtain ⟨p, hp, hzero⟩ := (not_failsReserved_iff w).1 h
  obtain rfl : p = op := Op.field_injective (hp.symm.trans hop)
  exact hzero

/-! ## The checks of decode, in their order -/

/-- Only LD and RD use SEL (R73). -/
theorem decodeOperands_sel_unused (c : Config) {op : Op} {sel : BitVec 4} (ridx rcnt : Byte)
    (hld : op ≠ .ld) (hrd : op ≠ .rd) (h : sel ≠ 0) : decodeOperands c op sel ridx rcnt = .error .rsvdNonzero := by
  have hne : sel ≠ 0#4 := h
  cases op with
  | ld => exact absurd rfl hld
  | rd => exact absurd rfl hrd
  | nop | enc | mc | arc | atk | pn | sb | rnd | clrerr | srst => simp [decodeOperands, unlessNonzero, hne]

theorem decodeIn_of_failsOp (c : Config) {w : CmdWord} (h : Machine.FailsOp w) : decodeIn c w = .error .illegalOp :=
  (reservedOpcodesAreIllegal c w).2 h

/-- The second check: RSV, then each field the operation does not use. -/
theorem decodeIn_of_failsReserved (c : Config) {w : CmdWord} (hop : ¬ Machine.FailsOp w) (h : Machine.FailsReserved w) :
    decodeIn c w = .error .rsvdNonzero := by
  obtain ⟨op, hdef⟩ := ofField_of_not_failsOp hop
  by_cases hrsv : rsvField w = 0
  · refine decodeIn_rsvdNonzero hdef ?_
    by_contra hne
    refine (not_failsReserved_iff w).2 ⟨op, (Op.ofField_eq_some _ _).1 hdef, hrsv, ?sel, ?ridx, ?rcnt⟩ h
    case sel =>
      intro hun
      obtain ⟨hld, hrd⟩ := not_or.1 hun
      exact by_contra fun hsel => hne (decodeOperands_sel_unused c _ _ hld hrd hsel)
    case ridx =>
      intro hun
      rw [not_or, not_or] at hun
      obtain ⟨harc, hatk, hrnd⟩ := hun
      exact by_contra fun hridx => hne (decodeOperands_ridx_unused c _ _ harc hatk hrnd hridx)
    case rcnt => exact fun hun => by_contra fun hrcnt => hne (decodeOperands_rcnt_unused c _ _ hun hrcnt)
  · exact decodeIn_rsv c w hdef hrsv

/-- Past the second check a word is decoded from its operands. -/
theorem decodeIn_of_not_failsReserved (c : Config) {w : CmdWord} {op : Op} (hop : opField w = op.field)
    (h : ¬ Machine.FailsReserved w) : decodeIn c w = decodeOperands c op (selField w) (ridxField w) (rcntField w) :=
  decodeIn_defined c w ((Op.ofField_eq_some _ _).2 hop) (unusedZero_of_not_failsReserved hop h).1

/-- The third check, for LD and for RD. -/
theorem decodeIn_of_failsSel {c : Config} {w : CmdWord} (hrsv : ¬ Machine.FailsReserved w) (h : Machine.FailsSel c w) :
    decodeIn c w = .error .illegalSel := by
  rcases h with ⟨hop, hsel⟩ | ⟨hop, hsel⟩
  · obtain ⟨-, -, hridx, hrcnt⟩ := unusedZero_of_not_failsReserved (op := .ld) hop hrsv
    rw [decodeIn_of_not_failsReserved c (op := .ld) hop hrsv, hridx (by decide), hrcnt (by decide)]
    exact decodeOperands_ld_illegalSel c hsel
  · obtain ⟨-, -, hridx, hrcnt⟩ := unusedZero_of_not_failsReserved (op := .rd) hop hrsv
    rw [decodeIn_of_not_failsReserved c (op := .rd) hop hrsv, hridx (by decide), hrcnt (by decide)]
    rcases hsel with hsel | ⟨hle, hge, hdtk⟩
    · exact decodeOperands_rd_illegalSel c hsel
    · exact decodeOperands_rd_dtk_absent hdtk hle hge

/-- The fourth check, for ENC, ARC and RND. -/
theorem decodeIn_of_failsRange {c : Config} {w : CmdWord} (hrsv : ¬ Machine.FailsReserved w) (h : Machine.FailsRange c w) :
    decodeIn c w = .error .argRange := by
  rcases h with ⟨hop, hcount⟩ | ⟨hop | hop, hindex⟩
  · obtain ⟨-, hsel, hridx, -⟩ := unusedZero_of_not_failsReserved (op := .enc) hop hrsv
    rw [decodeIn_of_not_failsReserved c (op := .enc) hop hrsv, hsel (by decide), hridx (by decide)]
    exact if_neg (Nat.not_le.2 hcount)
  · obtain ⟨-, hsel, -, hrcnt⟩ := unusedZero_of_not_failsReserved (op := .arc) hop hrsv
    rw [decodeIn_of_not_failsReserved c (op := .arc) hop hrsv, hsel (by decide), hrcnt (by decide)]
    exact if_neg (Nat.not_lt.2 hindex)
  · obtain ⟨-, hsel, -, hrcnt⟩ := unusedZero_of_not_failsReserved (op := .rnd) hop hrsv
    rw [decodeIn_of_not_failsReserved c (op := .rnd) hop hrsv, hsel (by decide), hrcnt (by decide)]
    exact if_neg (Nat.not_lt.2 hindex)

/-- LD takes every select code up to 3 (R171). -/
theorem decodeOperands_ld_command (c : Config) {sel : BitVec 4} (h : ¬ 3 < sel.toNat) :
    ∃ i, decodeOperands c .ld sel 0 0 = .command i := by
  obtain ⟨r, hr⟩ := Option.ne_none_iff_exists'.1 (mt (BlockReg.ofSel_eq_none sel).1 h)
  exact ⟨.ld r, by simp [decodeOperands, unlessNonzero, hr]⟩

/-- RD takes every select code up to 12, but for 8 to 11 where the schedule DTK is absent (R172, R176). -/
theorem decodeOperands_rd_command {c : Config} {sel : BitVec 4} (h : ¬ 12 < sel.toNat)
    (hdtk : ¬ (8 ≤ sel.toNat ∧ sel.toNat ≤ 11 ∧ c.dtkPresent = false)) :
    ∃ i, decodeOperands c .rd sel 0 0 = .command i := by
  obtain ⟨v, hv⟩ := Option.ne_none_iff_exists'.1 (mt (ReadSel.ofSel_eq_none sel).1 h)
  have hwf : (Instr.rd v).wf c = true := by
    cases v with
    | block r => rfl
    | tk j => rfl
    | dtk j =>
      obtain rfl : sel = (ReadSel.dtk j).sel := (ReadSel.ofSel_eq_some _ _).1 hv
      have hcodes : ∀ j : Fin 4, 8 ≤ (ReadSel.dtk j).sel.toNat ∧ (ReadSel.dtk j).sel.toNat ≤ 11 := by decide
      exact Bool.eq_true_of_not_eq_false fun hc => hdtk ⟨(hcodes j).1, (hcodes j).2, hc⟩
    | status => rfl
  exact ⟨.rd v, by simp [decodeOperands, unlessNonzero, hv, hwf]⟩

/-- A word that fails no check is a command: what is left to look at in an operation is the field it uses. -/
theorem decodeIn_of_no_failure {c : Config} {w : CmdWord} (hdef : ¬ Machine.FailsOp w) (hrsv : ¬ Machine.FailsReserved w)
    (hsel : ¬ Machine.FailsSel c w) (hrange : ¬ Machine.FailsRange c w) : ∃ i, decodeIn c w = .command i := by
  obtain ⟨op, hop⟩ := ofField_of_not_failsOp hdef
  rw [Op.ofField_eq_some] at hop
  obtain ⟨-, hsel0, hridx0, hrcnt0⟩ := unusedZero_of_not_failsReserved hop hrsv
  rw [decodeIn_of_not_failsReserved c hop hrsv]
  cases op with
  | nop | mc | pn | sb | clrerr | srst =>
    rw [hsel0 (by decide), hridx0 (by decide), hrcnt0 (by decide)]
    exact ⟨_, rfl⟩
  | ld =>
    rw [hridx0 (by decide), hrcnt0 (by decide)]
    exact decodeOperands_ld_command c fun h => hsel (.inl ⟨hop, h⟩)
  | rd =>
    rw [hridx0 (by decide), hrcnt0 (by decide)]
    exact decodeOperands_rd_command (fun h => hsel (.inr ⟨hop, .inl h⟩)) fun h => hsel (.inr ⟨hop, .inr h⟩)
  | enc =>
    rw [hsel0 (by decide), hridx0 (by decide)]
    exact ⟨_, if_pos (Nat.not_lt.1 fun h => hrange (.inl ⟨hop, h⟩))⟩
  | arc =>
    rw [hsel0 (by decide), hrcnt0 (by decide)]
    exact ⟨_, if_pos (Nat.not_le.1 fun h => hrange (.inr ⟨.inl hop, h⟩))⟩
  | rnd =>
    rw [hsel0 (by decide), hrcnt0 (by decide)]
    exact ⟨_, if_pos (Nat.not_le.1 fun h => hrange (.inr ⟨.inr hop, h⟩))⟩
  | atk =>
    rw [hsel0 (by decide), hrcnt0 (by decide)]
    exact ⟨_, rfl⟩

/-- Settles O16: decode makes the four checks in this order, and each example word fails the check its code names. -/
theorem errorCodeIsTheFirstFailingCheck : Obligations.ErrorCodeIsTheFirstFailingCheck :=
  ⟨fun c _ => ⟨decodeIn_of_failsOp c, decodeIn_of_failsReserved c, fun _ => decodeIn_of_failsSel,
      fun _ hrsv _ => decodeIn_of_failsRange hrsv, decodeIn_of_no_failure⟩,
    decodeIn_of_failsOp _ (by decide), decodeIn_of_failsReserved _ (by decide) (by decide),
    decodeIn_of_failsSel (by decide) (by decide), decodeIn_of_failsRange (by decide) (by decide)⟩

end Sys2Proof

namespace Sys2Proof.Machine

variable {s : State}

/-! ## Rejected words -/

/-- An edge that neither clears STATUS nor finds ERR at 0 keeps ERR and ECODE: a later error is not recorded, and without one
STATUS has no writer (R202). -/
theorem step_keeps_recorded_error {t : State} (h : step s = .next t) (he : s.err = true) (hc : ¬ ClearsStatus s) :
    t.err = true ∧ t.ecode = s.ecode := by
  by_cases hrej : ∃ e, Rejects s e
  · obtain ⟨e, hrej⟩ := hrej
    rw [← Host.Outcome.next.inj ((step_rejects_later hrej he).symm.trans h)]
    exact ⟨he, rfl⟩
  · obtain ⟨-, -, -, -, hstatus, -⟩ := registersChangeOnlyByTheirWriters s t h
    obtain ⟨herr, hecode⟩ := not_or.1 (mt hstatus (not_or.2 ⟨hc, hrej⟩))
    exact ⟨(not_not.1 herr).trans he, not_not.1 hecode⟩

/-- Settles O29: what recording an error does with ERR 0 and with ERR 1, and what every other edge leaves. -/
theorem firstErrorIsKept : Obligations.FirstErrorIsKept := by
  refine ⟨fun s e hrej he => ⟨_, step_rejects hrej, ?_, ?_⟩,
    fun s e hrej he => ⟨_, step_rejects_later hrej he, he, rfl⟩,
    fun s t h he hc => step_keeps_recorded_error h he hc,
    fun s => ⟨rfl, (statusWord_layout s).1⟩⟩
  · exact recordError_err e s
  · rw [recordError_first e s he]
    cases e <;> rfl

/-- Settles O30: recording an error writes STATUS only, and a rejected word finds BUSY at 0. -/
theorem rejectedWordChangesStatusOnly : Obligations.RejectedWordChangesStatusOnly := by
  intro s e hrej
  obtain ⟨-, hb, -⟩ := (accepts_eq s).1 hrej.1
  obtain ⟨er, ec, hrec⟩ := recordError_status e s
  refine ⟨nextEdge (s.setStatus er ec), by rw [step_rejects hrej, hrec],
    rfl, rfl, rfl, rfl, rfl, rfl, rfl, rfl, rfl, fun hr => ?_⟩
  simp [cmdReady, hr, hb]

/-! ## Idle edges -/

/-- With nothing presented at the listed edges ahead there is nothing at the first; past the list the ports are idle. -/
theorem now_idle_of_take {n : Nat} (h : ∀ x ∈ s.inputs.take (n + 1), x.rst = false ∧ x.cmdValid = false) :
    s.now.rst = false ∧ s.now.cmdValid = false := by
  rw [State.now]
  cases hl : s.inputs with
  | nil => exact ⟨rfl, rfl⟩
  | cons x l => exact h x (by simp [hl])

/-- Edges with nothing to do pass, and leave every register (R214). -/
theorem edges_idle (n : Nat) (hb : s.busy = false) (h : ∀ x ∈ s.inputs.take n, x.rst = false ∧ x.cmdValid = false) :
    edges n s = .next (s.setInputs (s.inputs.drop n)) := by
  induction n generalizing s with
  | zero => rfl
  | succ n ih =>
    obtain ⟨hr, hv⟩ := now_idle_of_take h
    have htail : (s.inputs.take (n + 1)).tail = (nextEdge s).inputs.take n := List.tail_take_eq_take_tail _ _
    have hrest : ∀ x ∈ (nextEdge s).inputs.take n, x.rst = false ∧ x.cmdValid = false := fun x hx =>
      h x (List.mem_of_mem_tail (htail ▸ hx))
    rw [edges_succ n (step_idle s hr hb hv), ih (s := nextEdge s) hb hrest, nextEdge_inputs, List.drop_tail]
    rfl

/-- Settles O6, by induction on the edges. -/
theorem idleCoreHoldsItsState : Obligations.IdleCoreHoldsItsState :=
  fun n _ hb h => edges_idle n hb h

/-! ## Every edge passes -/

/-- Settles O5: each case of an edge answers a next state (R86), and no operation takes port values off the list. -/
theorem everyEdgeAnswersNext : Obligations.EveryEdgeAnswersNext := by
  intro s
  cases hr : s.now.rst with
  | true => exact ⟨_, step_reset s hr, rfl⟩
  | false =>
    cases hb : s.busy with
    | true => exact ⟨_, step_encRound s hr hb, rfl⟩
    | false =>
      cases hv : s.now.cmdValid with
      | false => exact ⟨_, step_idle s hr hb hv, rfl⟩
      | true =>
        cases hd : decode s.now.cmd with
        | error e =>
          have hrej : Rejects s e := ⟨(accepts_eq s).2 ⟨hr, hb, hv⟩, hd⟩
          exact ⟨_, step_rejects hrej, by rw [nextEdge_inputs, recordError_inputs]⟩
        | command i =>
          obtain ⟨t, -, -, ht⟩ := stepRunsDecodedCommand s i hr hb hv hd
          exact ⟨_, ht, rfl⟩

end Sys2Proof.Machine

/-! PROOFS. Reset and the cycle counts: the reset state is legal (O10), what a reset edge and SRST leave (O1), a reset while an ENC
runs (O2), and for how many edges a word keeps the core busy (O49). -/

namespace Sys2Proof.Machine

variable {s : State}

/-! ## The reset state -/

/-- Settles O10: `reset()` leaves a legal state, and applied to the reset state it leaves that same state. -/
theorem resetStateIsLegal : Obligations.ResetStateIsLegal := legal_resetCore State.reset

/-- Where every register holds its reset value, the keys and the tweak are zero (R251). -/
theorem RegistersReset.keys (h : RegistersReset s) : s.keys = ⟨zeroBlock, zeroBlock, zeroBlock⟩ := by
  obtain ⟨-, hkey0, hkey1, htweak, -⟩ := h
  rw [State.keys, hkey0, hkey1, htweak]

theorem gather_zeroBlock (p : Vector (Fin 16) 16) : gather p zeroBlock = zeroBlock := by
  ext i h : 1
  simp [zeroBlock]

/-- Zero keys and a zero tweak give a zero schedule, whatever `PERM_Q` is (R106). -/
theorem tk_zero_keys (c : Config) (j : Fin 4) : tk c ⟨zeroBlock, zeroBlock, zeroBlock⟩ j = zeroBlock := by
  match j with
  | 0 | 1 => exact xorBlock_zero zeroBlock
  | 2 | 3 => exact (congrArg (xorBlock zeroBlock) (gather_zeroBlock c.permQ)).trans (xorBlock_zero zeroBlock)

theorem mix_zeroBlock : mix zeroBlock = zeroBlock := mix_eq_self fun i h => by simp [zeroBlock]

/-! ## Reset edges -/

/-- No command is accepted at a reset edge (R87). -/
theorem accepts_of_rst (h : s.now.rst = true) : accepts s = false := by
  rw [accepts, (cmdReady_eq_false s).2 (.inl h), Bool.and_false]

/-- Settles O1: a reset edge and SRST apply `reset()`; the schedule is derived from registers that are zero then. -/
theorem resetSetsEveryRegister : Obligations.ResetSetsEveryRegister := by
  refine ⟨registersReset_resetCore State.reset, fun c s j hs => ?_, fun s hr => ?_, fun s => ?_⟩
  · have htk : tk c s.keys j = zeroBlock := by rw [hs.keys, tk_zero_keys]
    exact ⟨htk, by rw [dtk, htk, mix_zeroBlock]⟩
  · refine ⟨accepts_of_rst hr, _, step_reset s hr, registersReset_resetCore s, rfl, fun hrst => ?_⟩
    rw [cmdReady, hrst]
    rfl
  · exact ⟨_, exec_srst s, registersReset_resetCore s, rfl⟩

/-- Settles O2: the reset edge leaves BUSY 0, so the edges after it find nothing to do. -/
theorem resetAbortsRunningEnc : Obligations.ResetAbortsRunningEnc := by
  intro s x xs rest _ hin hx hxs
  have hreset : step s = .next ((resetCore s).setInputs (xs ++ rest)) := by
    rw [← step_cons_reset s (xs ++ rest) hx, ← hin, setInputs_self]
  have hidle : edges xs.length ((resetCore s).setInputs (xs ++ rest)) = .next ((resetCore s).setInputs rest) := by
    have h := edges_idle (s := (resetCore s).setInputs (xs ++ rest)) xs.length rfl
      (by rwa [setInputs_inputs, List.take_left])
    rwa [setInputs_inputs, List.drop_left] at h
  exact ⟨_, (edges_succ _ hreset).trans hidle, registersReset_resetCore s, rfl⟩

/-! ## Cycle counts -/

/-- A word that decodes to ENC n keeps the core busy for n edges (R260). -/
theorem busyCycles_of_enc {c : Config} {w : CmdWord} {n : Byte} (h : decodeIn c w = .command (.enc n)) :
    busyCycles c w = n.toNat := by
  rw [← encode_of_decodeIn h, busyCycles_encode_enc (decodeIn_wf h)]

/-- A word that decodes to no ENC, or to one of no rounds, does not keep the core busy (R260). -/
theorem busyCycles_eq_zero {c : Config} {w : CmdWord} (h : ∀ n, decodeIn c w = .command (.enc n) → n = 0#8) :
    busyCycles c w = 0 := by
  cases hd : decodeIn c w with
  | error e => rw [busyCycles, hd]
  | command i =>
    by_cases henc : ∃ n, i = .enc n
    · obtain ⟨n, rfl⟩ := henc
      rw [busyCycles_of_enc hd, h n hd]
      rfl
    · rw [← encode_of_decodeIn hd, busyCycles_encode_other (decodeIn_wf hd) (not_exists.1 henc)]

/-- BUSY rises only at an edge that accepts an ENC of one round or more (R29, R151). -/
theorem step_keeps_not_busy {t : State} (h : step s = .next t) (hb : s.busy = false)
    (henc : ∀ n, AcceptsCommand s (.enc n) → n = 0#8) : t.busy = false := by
  rcases edge_cases h with ⟨-, rfl⟩ | ⟨hbusy, -, -⟩ | ⟨e, -, rfl⟩ | ⟨i, u, ha, hu, rfl⟩ | ⟨-, rfl⟩
  · rfl
  · exact absurd (hb.symm.trans hbusy) Bool.false_ne_true
  · obtain ⟨er, ec, hrec⟩ := recordError_status e s
    rw [hrec]
    exact hb
  · cases ha.writes hu with
    | nop | rd _ | roundStep _ _ | clrerr => exact hb
    | ld r => rw [nextEdge_busy, setBlock_busy, hb]
    | enc n _ => rw [henc n ha, startEnc_zero, nextEdge_busy, hb]
    | srst => rfl
  · exact hb

/-- Settles O49: an ENC of n > 0 rounds is busy until its last round edge, and after any other word BUSY has not risen. -/
theorem cycleCounts : Obligations.CycleCounts := by
  refine ⟨fun n hn => busyCycles_encode_enc (decide_eq_true hn),
    fun w hw => busyCycles_eq_zero fun n hd => absurd hd (hw n), fun w => rfl, ?_⟩
  rintro s w k ha rfl hk hr
  rw [cycles] at hk ⊢
  by_cases henc : ∃ n, decode s.now.cmd = .command (.enc n) ∧ n ≠ 0#8
  · obtain ⟨n, hd, hn⟩ := henc
    rw [busyCycles_of_enc hd] at hk ⊢
    refine ⟨_, edges_enc_rounds ⟨ha, hd⟩ hn (Nat.le_of_lt_succ hk) hr, ?_⟩
    simp only [Nat.add_lt_add_iff_right]
    rfl
  · have hzero : ∀ n, decode s.now.cmd = .command (.enc n) → n = 0#8 := fun n hd =>
      not_not.1 fun hn => henc ⟨n, hd, hn⟩
    rw [busyCycles_eq_zero hzero] at hk ⊢
    obtain rfl : k = 0 := Nat.lt_one_iff.1 hk
    obtain ⟨-, hb, -⟩ := (accepts_eq s).1 ha
    obtain ⟨t, ht, -⟩ := everyEdgeAnswersNext s
    exact ⟨t, edges_one ht, step_keeps_not_busy ht hb fun n hacc => hzero n hacc.2⟩

end Sys2Proof.Machine
